-- ==== Sys2Proof/Word.lean ====
section
/-! DEFINITION. The units the core moves: a 64-bit stack cell and a 72-bit code slot (`20_memory.md` R40, R43), and the
byte of the transport serialisation (R44). -/

namespace Sys2Proof

/-- A byte of the transport form of slots and cells; no byte exists inside the core (R43, R44). -/
abbrev Byte := BitVec 8

/-- One 64-bit stack cell, push payload, ALU operand or ALU result (`CELL_W`, R6). A bare bit pattern (R26). -/
abbrev Cell := BitVec 64

/-- One 72-bit code slot (`SLOT_W`, R6, R61). -/
abbrev Slot := BitVec 72

end Sys2Proof
end

