-- ==== Sys2Proof/Config.lean ====
section
/-! DEFINITION. The implementation parameters of `00_scope.md` R6. The plain ones form `Params`, which the state
carries as the model's argument; the open values are opaque constants, of which nothing can be proved but what their
types say. `CYCLES` and `PORTS` have no field: no rule depends on them (R197, R2; log 12). -/

namespace Sys2Proof.Config

/-- `INT_OVERFLOW`: what a signed overflow does (R6, R111). -/
inductive IntOverflow where
  /-- The result is taken modulo 2^64. -/
  | wrap
  /-- `IntOverflow` is raised, error code 5. -/
  | fault
  deriving DecidableEq, Repr, Inhabited

/-- `STACK_CAP`: infinity, or a finite capacity of at least 2 (R6). A finite one is held as what it has beyond the
two cells every core has, so that no value below 2 can be written. -/
inductive StackCap where
  /-- `STACK_CAP = infinity`, the source's idealised stack. -/
  | unbounded
  /-- `STACK_CAP = spare + 2`. -/
  | bounded (spare : Nat)
  deriving DecidableEq, Repr, Inhabited

/-- The plain parameters, fixed for one core: the arguments the model takes (R6). -/
structure Params where
  /-- `CODE_MAX`, the largest code length a LOAD accepts. -/
  codeMax : Nat
  /-- `STACK_CAP`. -/
  stackCap : StackCap
  /-- `INT_OVERFLOW`. -/
  intOverflow : IntOverflow
  deriving DecidableEq, Repr

/-- R6: `1 <= CODE_MAX <= 2^64 - 1`. (`STACK_CAP >= 2` holds by its type.) -/
abbrev Params.wf (p : Params) : Prop := 1 ≤ p.codeMax ∧ p.codeMax ≤ 2 ^ 64 - 1

/-- The opcode argument of `NAN_RESULT` (R132): the four float operations. -/
inductive FloatOp where
  | add | sub | mul | div
  deriving DecidableEq, Repr

/-- DESIGN CHOICE (log 1): the power-on core's `CODE_MAX`, less one: a free value, any number below 2^64 - 1. Safe. -/
opaque codeMaxLessOne : Fin 18446744073709551615

/-- DESIGN CHOICE (log 1): the power-on core's `STACK_CAP`: a free value. Safe. -/
opaque stackCap : StackCap

/-- DESIGN CHOICE (log 3): the sign and the fraction, less one, of `NAN_RESULT(op, a, b)`: a free value. The fraction
is any number from 1 to 2^52 - 1, so the pattern is some NaN and may be every NaN (R132). Safe. -/
opaque nanChoice : FloatOp → Cell → Cell → Bool × Fin 4503599627370495

end Sys2Proof.Config
end

