-- ==== Sys2Proof/Syntax.lean ====
section
/-! DEFINITION. The abstract instruction, one constructor per row of spec/opcode_table.json (`30_encoding.md` R60). -/

namespace Sys2Proof

/-- R60: an instruction is one of these 11 values; nothing else is an instruction. -/
inductive Instr where
  /-- push-integer(v), R100. `v` is the pattern `bits64(v)` of the signed 64-bit payload. -/
  | pushInteger (v : Cell)
  /-- push-float(x), R101. `x` is the pattern `bits(x)` of the binary64 payload. -/
  | pushFloat (x : Cell)
  /-- pop, R102. -/
  | pop
  /-- add-int, R112. -/
  | addInt
  /-- sub-int, R113. -/
  | subInt
  /-- mul-int, R114. -/
  | mulInt
  /-- div-int, R115. -/
  | divInt
  /-- add-float, R135. -/
  | addFloat
  /-- sub-float, R136. -/
  | subFloat
  /-- mul-float, R137. -/
  | mulFloat
  /-- div-float, R138. -/
  | divFloat
  deriving DecidableEq, Repr

/-- Why a slot is no instruction. Both raise `IllegalInstruction` when the slot is fetched (R66). -/
inductive DecodeError where
  /-- `OP` is in 0x0B..0xFF (R67). -/
  | unassignedOpcode (op : Byte)
  /-- `OP` is in 0x02..0x0A and `IMM` is not 0 (R64, R68). -/
  | nonzeroImmediate (op : Byte) (imm : Cell)
  /-- Fewer than the nine bytes of a slot in the transport form (R44, R65). -/
  | truncated
  deriving DecidableEq, Repr

end Sys2Proof
end

