-- ==== Sys2Proof/WellFormed.lean ====
section
/-! DEFINITION. Which terms stand for something. An abstract instruction cannot be malformed (R60), so the checks are
on slots (R69), on the parameters (`Config.Params.wf`, R6) and on the programs a LOAD accepts (R151). -/

namespace Sys2Proof

/-- R61: the `OP` field, bits 71:64, as the well-formedness check reads it. -/
def Slot.opField (w : Slot) : Nat := w.toNat / 2 ^ 64

/-- R61: the `IMM` field, bits 63:0, as the well-formedness check reads it. -/
def Slot.immField (w : Slot) : Nat := w.toNat % 2 ^ 64

/-- R69: a slot is legal when its opcode is assigned (R62) and, but for the two push instructions, its immediate is
zero (R64). -/
def Slot.wellFormed (w : Slot) : Bool :=
  w.opField ≤ 0x0A && (w.opField ≤ 0x01 || w.immField == 0)

/-- R60: "At this level, malformed instructions cannot be represented": the payload types leave no ill-formed
instruction, so the check passes every constructor. -/
def Instr.wellFormed : Instr → Bool
  | .pushInteger _ | .pushFloat _ | .pop
  | .addInt | .subInt | .mulInt | .divInt
  | .addFloat | .subFloat | .mulFloat | .divFloat => true

/-- R151: a LOAD accepts a program of at most `CODE_MAX` slots, legal or not (R23). -/
def Params.accepts (p : Config.Params) (slots : List Slot) : Bool :=
  slots.length ≤ p.codeMax

end Sys2Proof
end

