-- ==== Sys2Proof/Decode.lean ====
section
/-! DEFINITION. Decoding of slots, total over all 2^72 of them (`30_encoding.md` R66); the encoder (R62); and the
transport serialisation of slots and cells as bytes (`20_memory.md` R44). -/

namespace Sys2Proof

/-- R61: `OP`, bits 71:64 of a slot. -/
def slotOp (w : Slot) : Byte := w.extractLsb' 64 8

/-- R61: `IMM`, bits 63:0 of a slot. -/
def slotImm (w : Slot) : Cell := w.extractLsb' 0 64

/-- R61: the slot `{OP, IMM}`. -/
def mkSlot (op : Byte) (imm : Cell) : Slot := op ++ imm

/-- R66, R68: an opcode with no payload decodes only when `IMM = 0`. -/
def noPayload (op : Byte) (imm : Cell) (i : Instr) : Except DecodeError Instr :=
  if imm = 0#64 then .ok i else .error (.nonzeroImmediate op imm)

/-- R66: `Decode`, by the opcode map of R62. -/
def decode (w : Slot) : Except DecodeError Instr :=
  let op := slotOp w
  let imm := slotImm w
  match op.toNat with
  | 0x00 => .ok (.pushInteger imm)
  | 0x01 => .ok (.pushFloat imm)
  | 0x02 => noPayload op imm .pop
  | 0x03 => noPayload op imm .addInt
  | 0x04 => noPayload op imm .subInt
  | 0x05 => noPayload op imm .mulInt
  | 0x06 => noPayload op imm .divInt
  | 0x07 => noPayload op imm .addFloat
  | 0x08 => noPayload op imm .subFloat
  | 0x09 => noPayload op imm .mulFloat
  | 0x0A => noPayload op imm .divFloat
  | _ => .error (.unassignedOpcode op)

/-- R62: the `OP` column. -/
def opcode : Instr → Byte
  | .pushInteger _ => 0x00#8
  | .pushFloat _ => 0x01#8
  | .pop => 0x02#8
  | .addInt => 0x03#8
  | .subInt => 0x04#8
  | .mulInt => 0x05#8
  | .divInt => 0x06#8
  | .addFloat => 0x07#8
  | .subFloat => 0x08#8
  | .mulFloat => 0x09#8
  | .divFloat => 0x0A#8

/-- R62, R63: the `IMM` column: the payload whole for the two push instructions, 0 for the others. -/
def immediate : Instr → Cell
  | .pushInteger v => v
  | .pushFloat x => x
  | .pop | .addInt | .subInt | .mulInt | .divInt | .addFloat | .subFloat | .mulFloat | .divFloat => 0#64

/-- R62: `Encode`, the one slot of an instruction. -/
def encode (i : Instr) : Slot := mkSlot (opcode i) (immediate i)

/-- R62: the mnemonic column, as spec/opcode_table.json spells it. -/
def mnemonic : Instr → String
  | .pushInteger _ => "push-integer"
  | .pushFloat _ => "push-float"
  | .pop => "pop"
  | .addInt => "add-int"
  | .subInt => "sub-int"
  | .mulInt => "mul-int"
  | .divInt => "div-int"
  | .addFloat => "add-float"
  | .subFloat => "sub-float"
  | .mulFloat => "mul-float"
  | .divFloat => "div-float"

/-- R44: a 64-bit value as 8 bytes, little-endian. -/
def cellBytes (v : Cell) : List Byte :=
  (List.range 8).map fun k => v.extractLsb' (8 * k) 8

/-- R44: the value of little-endian bytes, as a number. -/
def littleEndian : List Byte → Nat
  | [] => 0
  | b :: rest => b.toNat + 256 * littleEndian rest

/-- R44: a slot as 9 bytes: byte 0 is `OP`, bytes 1..8 are `IMM` little-endian. -/
def slotBytes (w : Slot) : List Byte := slotOp w :: cellBytes (slotImm w)

/-- R44: the slot of the first 9 bytes, with the bytes after it; none when fewer than 9 are left. -/
def slotOfBytes : List Byte → Option (Slot × List Byte)
  | op :: b0 :: b1 :: b2 :: b3 :: b4 :: b5 :: b6 :: b7 :: rest =>
    some (mkSlot op (BitVec.ofNat 64 (littleEndian [b0, b1, b2, b3, b4, b5, b6, b7])), rest)
  | _ => none

/-- R44, R66: the instruction of the first 9 bytes, with the bytes after it. Total on any bytes. -/
def decodeBytes (bytes : List Byte) : Except DecodeError (Instr × List Byte) :=
  match slotOfBytes bytes with
  | none => .error .truncated
  | some (w, rest) =>
    match decode w with
    | .ok i => .ok (i, rest)
    | .error e => .error e

/-- The instruction the decoder reads from the low `nbits` bits of `w`, numbered as spec/opcode_table.json numbers
them: the one word of an instruction is its slot, bit 0 of `w` is bit 0 of `IMM` (log 11). -/
def decodeTableWord (nbits w : Nat) : Option Instr :=
  (decode (BitVec.ofNat 72 (w % 2 ^ nbits))).toOption

end Sys2Proof
end

