-- ==== Sys2Proof/Machine/Params.lean ====
section
/-! DEFINITION. The parameters of the core that `State.reset` describes, and the tests against `STACK_CAP`. -/

namespace Sys2Proof.Machine

/-- The parameters at power-on. `CODE_MAX` and `STACK_CAP` are free values (DESIGN CHOICE, log 1: safe). `INT_OVERFLOW`
is `WRAP`: "This hardware's default is `WRAP`" (R111; log 2: unsafe for a claim about a run from reset on a `FAULT` part). -/
def resetParams : Config.Params :=
  { codeMax := Config.codeMaxLessOne.val + 1
    stackCap := Config.stackCap
    intOverflow := .wrap }

/-- `STACK_CAP` as a number, none for infinity (R6). -/
def capacity : Config.StackCap → Option Nat
  | .unbounded => none
  | .bounded spare => some (spare + 2)

/-- Whether `depth = STACK_CAP` (R85). Every capacity is at least 2 (R6), so a depth below 2 is decided without it. -/
def capReached (c : Config.StackCap) (depth : Nat) : Bool :=
  match depth with
  | 0 => false
  | 1 => false
  | d + 2 =>
    match c with
    | .unbounded => false
    | .bounded spare => d == spare

/-- Whether `depth <= STACK_CAP` (R25). -/
def capHolds (c : Config.StackCap) (depth : Nat) : Bool :=
  match c with
  | .unbounded => true
  | .bounded spare => depth ≤ spare + 2

end Sys2Proof.Machine
end

