-- ==== Sys2Proof/Machine/State.lean ====
section
/-! DEFINITION. The architectural state of `10_state.md`, the host commands waiting and the replies given
(`44_host_interface.md`), and the reasons a step can stop. -/

namespace Sys2Proof.Machine

/-- `RUN_STATE` (R27). The reserved values 5 to 7 are never held, so they have no constructor (log 19). -/
inductive RunState where
  /-- 0: no code loaded since power-on. -/
  | empty
  /-- 1: code loaded, not yet run. -/
  | ready
  /-- 2: the loop is executing. -/
  | running
  /-- 3: the run reached the end of the code. -/
  | completed
  /-- 4: the run was halted by an error. -/
  | halted
  deriving DecidableEq, Repr

/-- The error kinds of R170. The reserved codes 6 to 255 are never produced, so they have no constructor
(log 19). -/
inductive ErrKind where
  | outOfBounds
  | divByZero
  | outOfMemory
  | illegalInstruction
  | intOverflow
  deriving DecidableEq, Repr

/-- The five host commands (R150). -/
inductive Command where
  /-- LOAD(slots), R151. -/
  | load (slots : List Slot)
  /-- START, R152. -/
  | start
  /-- READ_INT(index), R153; the index is a 64-bit two's complement pattern (R155). -/
  | readInt (index : BitVec 64)
  /-- READ_FLOAT(index), R154. -/
  | readFloat (index : BitVec 64)
  /-- READ_REG(number), R156. -/
  | readReg (number : BitVec 64)
  deriving DecidableEq, Repr

/-- The response codes of R150. -/
inductive Response where
  /-- `OK` = 0. -/
  | ok
  /-- An error code, 1 to 5. -/
  | error (e : ErrKind)
  /-- `NOT_READY` = 0xFF. -/
  | notReady
  deriving DecidableEq, Repr

/-- One response with the command it answers and, where the command reads, the 64-bit value (R150). -/
structure Reply where
  command : Command
  response : Response
  value : Option Cell
  deriving DecidableEq, Repr

/-- One instance of the core (R160, R182; log 14). Plain data. -/
structure State where
  /-- `pc`, 64 bits unsigned, counted in slots (R21). -/
  pc : BitVec 64
  /-- The code store `code[0..N-1]`; its length is `N` (R23; log 4). -/
  code : List Slot
  /-- The live cells of the operand stack, TOP FIRST; its length is `depth` (R24, R25; log 4). -/
  stack : List Cell
  /-- `RUN_STATE` (R27). -/
  runState : RunState
  /-- `ERR` (R28); `none` is the kind `NONE`, code 0. -/
  err : Option ErrKind
  /-- The host commands issued and not yet performed, oldest first (R157; log 6). -/
  pending : List Command
  /-- The replies given, oldest first (R150; log 6). -/
  replies : List Reply
  /-- The implementation parameters, the model's arguments (R6; log 1). No step writes them. -/
  params : Config.Params
  deriving DecidableEq, Repr

/-- What stops the model although the spec gives no such stop. -/
inductive Fault where
  /-- Raised by `step` alone, when the core is RUNNING with `pc > N`: there is no slot to fetch and the spec gives the
  case no effect, since R22 says that `pc <= N` always holds (log 9). SAFE: no state that meets the invariant of
  `Safety.lean` reaches it. -/
  | fetchOutsideCode
  deriving DecidableEq, Repr

/-- Why an instruction has no meaning in the model. -/
inductive Refusal where
  /-- Raised by an arm of `exec` alone, for an instruction not modelled yet. SAFE: the model stops. No arm raises it. -/
  | notModelled (mnemonic : String)
  deriving DecidableEq, Repr

/-- The power-on column of R32 (R190). The stack cells are unspecified and none is live, so none is listed. The command
and reply lists are empty (DESIGN CHOICE, log 6: safe). -/
def State.reset : State :=
  { pc := 0#64
    code := []
    stack := []
    runState := .empty
    err := none
    pending := []
    replies := []
    params := resetParams }

/-- The canonical form of the two spaces (R40): both are dense from index 0 by construction, the code has at most
`CODE_MAX` slots (R23), and the stack at most `STACK_CAP` cells (R25). -/
abbrev Memory.wf (s : State) : Prop :=
  s.code.length ≤ s.params.codeMax ∧ capHolds s.params.stackCap s.stack.length = true

end Sys2Proof.Machine
end

