-- ==== Sys2Proof/Machine/Operands.lean ====
section
/-! DEFINITION. The readings of a 64-bit pattern: signed and unsigned integer (R7, R10), binary64 (R9), and the signed
index of the accessors (R155). None of them changes a bit. -/

namespace Sys2Proof.Machine

/-- R7: the two's-complement integer of a pattern, in [-2^63, 2^63 - 1]. -/
abbrev sint (v : Cell) : Int := v.toInt

/-- R7: the unsigned integer of a pattern. -/
abbrev uint (v : Cell) : Nat := v.toNat

/-- R7: the 64-bit two's-complement pattern of an integer taken modulo 2^64. -/
abbrev bits64 (n : Int) : Cell := BitVec.ofInt 64 n

/-- R10: whether an integer fits in 64 signed bits. -/
def fits64 (n : Int) : Bool := -2 ^ 63 ≤ n && n ≤ 2 ^ 63 - 1

/-- What a binary64 pattern stands for. A finite value is `(-1)^neg * sig * 2^exp` in units of 2^-1074, the smallest
positive binary64 number: every finite binary64 number is a whole number of these units. -/
inductive F64 where
  | nan
  | inf (neg : Bool)
  | finite (neg : Bool) (sig exp : Nat)
  deriving DecidableEq, Repr

/-- R9: bit 63, the sign. PRESUMED (log 10): the binary64 layout is G1, general knowledge. -/
def f64Sign (v : Cell) : Bool := v.msb

/-- R9: bits 62:52, the biased exponent. -/
def f64Exponent (v : Cell) : Nat := v.toNat / 2 ^ 52 % 2 ^ 11

/-- R9: bits 51:0, the fraction. -/
def f64Fraction (v : Cell) : Nat := v.toNat % 2 ^ 52

/-- R9: `f64(v)`. Biased exponent 2047 is infinity or NaN (R132); 0 is zero or subnormal (R133). -/
def f64 (v : Cell) : F64 :=
  if f64Exponent v = 2047 then
    if f64Fraction v = 0 then .inf (f64Sign v) else .nan
  else if f64Exponent v = 0 then .finite (f64Sign v) (f64Fraction v) 0
  else .finite (f64Sign v) (f64Fraction v + 2 ^ 52) (f64Exponent v - 1)

/-- R155: the stack position of a signed index at a given depth, in unbounded arithmetic; none for `OutOfBounds`. -/
def resolve (depth : Nat) (index : BitVec 64) : Option Nat :=
  let i := index.toInt
  let pos := if 0 ≤ i then i else (depth : Int) + i
  if pos < 0 ∨ (depth : Int) ≤ pos then none else some pos.toNat

end Sys2Proof.Machine
end

