-- ==== Sys2Proof/Machine/FloatFormat.lean ====
section
/-! DEFINITION. Binary64 arithmetic (`43_float_alu.md` R130 to R134): exact results, rounded once by roundTiesToEven.
Exact values are rationals in units of 2^-1074, so the smallest subnormal is 1. PRESUMED (log 10): what IEEE 754 says of
these operations is general knowledge the spec marks as such (G1 to G5). -/

namespace Sys2Proof.Machine

/-- R9: the pattern of plus or minus zero. -/
def zeroBits (neg : Bool) : Cell := if neg then 0x8000000000000000#64 else 0#64

/-- R134: the pattern of plus or minus infinity. -/
def infBits (neg : Bool) : Cell := if neg then 0xFFF0000000000000#64 else 0x7FF0000000000000#64

/-- How many units of 2^-1074 make 1. -/
def unitsPerOne : Nat := 2 ^ 1074

/-- R131: the integer nearest to `num / den`, a tie going to the even one. -/
def nearestEven (num den : Nat) : Nat :=
  let q := num / den
  let r := num % den
  if den < 2 * r ∨ (den = 2 * r ∧ q % 2 = 1) then q + 1 else q

/-- R133: the exponent, in units of 2^-1074, of the last place of a binary64 number near a magnitude of `units`:
0 in the subnormal range and the first binade above it. -/
def lastPlace (units : Nat) : Nat := units.log2 - 52

/-- R131, R133, R134: the binary64 pattern nearest to the magnitude `num / den` in units of 2^-1074, ties to even, with
the sign given. Adding the significand to the exponent field carries a rounded-up significand into the next binade and a
subnormal into the normals. A magnitude that reaches the exponent field 2047 is infinity. -/
def roundUnits (neg : Bool) (num den : Nat) : Cell :=
  let e := lastPlace (num / den)
  let mag := e * 2 ^ 52 + nearestEven num (den * 2 ^ e)
  if 2047 * 2 ^ 52 ≤ mag then infBits neg
  else zeroBits neg ||| BitVec.ofNat 64 mag

/-- The signed magnitude of a finite value, as an integer in units of 2^-1074. -/
def signedUnits (neg : Bool) (sig exp : Nat) : Int :=
  if neg then -((sig * 2 ^ exp : Nat) : Int) else ((sig * 2 ^ exp : Nat) : Int)

/-- The value with its sign turned; a NaN stays a NaN. -/
def f64Neg : F64 → F64
  | .nan => .nan
  | .inf neg => .inf (!neg)
  | .finite neg sig exp => .finite (!neg) sig exp

/-- R9: `fadd(x, y)`; none where the result is NaN (R132). An exact sum of zero is +0 but for (-0) + (-0) (R135). -/
def fadd : F64 → F64 → Option Cell
  | .nan, _ => none
  | _, .nan => none
  | .inf m, .inf n => if m = n then some (infBits m) else none
  | .inf m, .finite _ _ _ => some (infBits m)
  | .finite _ _ _, .inf n => some (infBits n)
  | .finite m sx ex, .finite n sy ey =>
    let sum := signedUnits m sx ex + signedUnits n sy ey
    if sum = 0 then some (zeroBits (m && n))
    else some (roundUnits (sum < 0) sum.natAbs 1)

/-- R9: `fsub(x, y)`: IEEE subtraction is the addition of the negated subtrahend. -/
def fsub (x y : F64) : Option Cell := fadd x (f64Neg y)

/-- R9: `fmul(x, y)`; none where the result is NaN (R132). The product of two numbers of units is in units of 2^-2148. -/
def fmul : F64 → F64 → Option Cell
  | .nan, _ => none
  | _, .nan => none
  | .inf m, .inf n => some (infBits (m != n))
  | .inf m, .finite n sy _ => if sy = 0 then none else some (infBits (m != n))
  | .finite m sx _, .inf n => if sx = 0 then none else some (infBits (m != n))
  | .finite m sx ex, .finite n sy ey =>
    some (roundUnits (m != n) ((sx * 2 ^ ex) * (sy * 2 ^ ey)) unitsPerOne)

/-- R9: `fdiv(x, y)`; none where the result is NaN (R132). The quotient by a zero is IEEE's, though div-float raises
`DivByZero` before it could be reached (R138). -/
def fdiv : F64 → F64 → Option Cell
  | .nan, _ => none
  | _, .nan => none
  | .inf _, .inf _ => none
  | .inf m, .finite n _ _ => some (infBits (m != n))
  | .finite m _ _, .inf n => some (zeroBits (m != n))
  | .finite m sx ex, .finite n sy ey =>
    if sy = 0 then (if sx = 0 then none else some (infBits (m != n)))
    else some (roundUnits (m != n) (sx * 2 ^ ex * unitsPerOne) (sy * 2 ^ ey))

/-- R132: `NAN_RESULT(op, a, b)`: exponent field all ones, fraction not zero, everything else free (log 3). -/
def nanResult (op : Config.FloatOp) (a b : Cell) : Cell :=
  infBits (Config.nanChoice op a b).1 ||| BitVec.ofNat 64 ((Config.nanChoice op a b).2.val + 1)

/-- R132: a result that is NaN takes its bits from `NAN_RESULT`. -/
def floatResult (op : Config.FloatOp) (a b : Cell) (r : Option Cell) : Cell :=
  match r with
  | some v => v
  | none => nanResult op a b

/-- R139: `f64(a) == 0.0`, the IEEE comparison: true of +0.0 and -0.0 alone. -/
def equalsZero (a : Cell) : Bool :=
  match f64 a with
  | .finite _ sig _ => sig == 0
  | .inf _ => false
  | .nan => false

end Sys2Proof.Machine
end

