-- ==== Sys2Proof/Machine/Flags.lean ====
section
/-! DEFINITION. The core has no flags, condition codes or IEEE exception flags (R31, R134), so no instruction computes
one. What stands here instead is the status word: the codes of the run state and of the errors, and how `STATUS` packs them. -/

namespace Sys2Proof.Machine

/-- R27: the 3-bit value of `RUN_STATE`. -/
def runStateCode : RunState → BitVec 3
  | .empty => 0#3
  | .ready => 1#3
  | .running => 2#3
  | .completed => 3#3
  | .halted => 4#3

/-- R170: the code of an error kind. -/
def errKindCode : ErrKind → BitVec 8
  | .outOfBounds => 1#8
  | .divByZero => 2#8
  | .outOfMemory => 3#8
  | .illegalInstruction => 4#8
  | .intOverflow => 5#8

/-- R28, R170: the 8-bit value of `ERR`; `NONE` is 0. -/
def errCode : Option ErrKind → BitVec 8
  | none => 0#8
  | some e => errKindCode e

/-- R150: the code of a response. -/
def responseCode : Response → BitVec 8
  | .ok => 0#8
  | .error e => errKindCode e
  | .notReady => 0xFF#8

/-- R29: `STATUS`: bits 63:16 zero, `ERR` in 15:8, bits 7:3 zero, `RUN_STATE` in 2:0. -/
def statusWord (s : State) : BitVec 64 :=
  0#48 ++ errCode s.err ++ 0#5 ++ runStateCode s.runState

end Sys2Proof.Machine
end

