-- ==== Sys2Proof/Machine/Ops.lean ====
section
/-! DEFINITION. The named operations every instruction and host command uses: reading the two spaces (`20_memory.md`),
the stack primitives and the binary frame (`40_execution.md` R85 to R87), commit (R83), and taking an error
(`60_exceptions.md` R172). There is no return from an error: HALTED is terminal and only LOAD leaves it (R174). -/

namespace Sys2Proof.Machine

/-- R25: `depth`, the number of live cells. -/
def depth (s : State) : Nat := s.stack.length

/-- R24: `S[i]`, counted from the bottom; none where no cell is live. -/
def cellAt (s : State) (i : Nat) : Option Cell := s.stack.reverse[i]?

/-- R23, R81: `code[i]`; none outside `0..N-1`. -/
def slotAt (s : State) (i : Nat) : Option Slot := s.code[i]?

/-- R23: `N`, the code length. -/
def codeLen (s : State) : Nat := s.code.length

/-- R81: the fetch `MemRead(CODE, pc, 1)`. -/
def fetch (s : State) : Option Slot := slotAt s s.pc.toNat

/-- R150: gives one response. -/
def reply (c : Command) (r : Response) (v : Option Cell) (s : State) : State :=
  { s with replies := s.replies ++ [{ command := c, response := r, value := v }] }

/-- R83: the advance of `pc`. By R22 it never wraps in a state a run reaches (log 15). -/
def advance (s : State) : State := { s with pc := s.pc + 1#64 }

/-- R172: TAKING AN ERROR. `ERR` and `RUN_STATE` are written; `pc`, `depth` and every cell keep their values; the START
response is the code. Nothing is saved anywhere else. A halt is a next state (log 5). -/
def halt (e : ErrKind) (s : State) : State :=
  reply .start (.error e) none { s with err := some e, runState := .halted }

/-- R82: the run completes, and START is answered `OK` (R152). -/
def complete (s : State) : State :=
  reply .start .ok none { s with runState := .completed }

/-- R83, R84: an instruction that raised nothing commits its writes and then `pc` advances; one that raised `e` commits
nothing and the core halts in the state from before it. -/
def retire (s : State) (r : Except ErrKind State) : Host.Outcome State Fault Refusal :=
  match r with
  | .ok t => .next (advance t)
  | .error e => .next (halt e s)

/-- R85: `Push(v)`. -/
def push (v : Cell) (s : State) : Except ErrKind State :=
  match capReached s.params.stackCap (depth s) with
  | true => .error .outOfMemory
  | false => .ok { s with stack := v :: s.stack }

/-- R86: `PopTwo()`: the first popped `a` is the top, the second popped `b` the cell under it. -/
def popTwo (s : State) : Except ErrKind (Cell × Cell × State) :=
  match s.stack with
  | a :: b :: rest => .ok (a, b, { s with stack := rest })
  | _ => .error .outOfBounds

/-- R87: `BinOp(f)`, the frame of the eight ALU instructions; `f` takes `a` (the top) and `b`. -/
def binOp (f : Cell → Cell → Except ErrKind Cell) (s : State) : Except ErrKind State :=
  match popTwo s with
  | .error e => .error e
  | .ok (a, b, t) =>
    match f a b with
    | .error e => .error e
    | .ok r => push r t

/-- R102: the top cell stops being live; an empty stack is left as it is. -/
def dropTop (s : State) : State := { s with stack := s.stack.tail }

end Sys2Proof.Machine
end

