-- ==== Sys2Proof/Machine/FloatFamily.lean ====
section
/-! DEFINITION. The floating-point unit (`43_float_alu.md` R135 to R141). `b`, pushed earlier, is the left operand.
Cells are untyped: a float instruction reads whatever 64 bits it finds (R140). -/

namespace Sys2Proof.Machine

/-- R135: the operation of add-float. -/
def addFloatOp (a b : Cell) : Except ErrKind Cell :=
  .ok (floatResult .add a b (fadd (f64 b) (f64 a)))

/-- R136: the operation of sub-float. -/
def subFloatOp (a b : Cell) : Except ErrKind Cell :=
  .ok (floatResult .sub a b (fsub (f64 b) (f64 a)))

/-- R137: the operation of mul-float. -/
def mulFloatOp (a b : Cell) : Except ErrKind Cell :=
  .ok (floatResult .mul a b (fmul (f64 b) (f64 a)))

/-- R138: the operation of div-float: the zero test looks at the divisor alone and comes first. -/
def divFloatOp (a b : Cell) : Except ErrKind Cell :=
  match equalsZero a with
  | true => .error .divByZero
  | false => .ok (floatResult .div a b (fdiv (f64 b) (f64 a)))

/-- R135: add-float. -/
def execAddFloat (s : State) : Host.Outcome State Fault Refusal :=
  retire s (binOp addFloatOp s)

/-- R136: sub-float. -/
def execSubFloat (s : State) : Host.Outcome State Fault Refusal :=
  retire s (binOp subFloatOp s)

/-- R137: mul-float. -/
def execMulFloat (s : State) : Host.Outcome State Fault Refusal :=
  retire s (binOp mulFloatOp s)

/-- R138: div-float. -/
def execDivFloat (s : State) : Host.Outcome State Fault Refusal :=
  retire s (binOp divFloatOp s)

end Sys2Proof.Machine
end

