-- ==== Sys2Proof/Machine/IntegerFamily.lean ====
section
/-! DEFINITION. The integer unit (`42_integer_alu.md` R110 to R117). `b`, pushed earlier, is the left operand. -/

namespace Sys2Proof.Machine

/-- R111: `IntResult(n)`. -/
def intResult (o : Config.IntOverflow) (n : Int) : Except ErrKind Cell :=
  match fits64 n, o with
  | true, _ => .ok (bits64 n)
  | false, .wrap => .ok (bits64 n)
  | false, .fault => .error .intOverflow

/-- R10: `tdiv(x, y)`, division truncating toward zero, by its magnitudes; 0 where `y = 0`, which div-int never asks. -/
def tdiv (x y : Int) : Int :=
  let q : Nat := x.natAbs / y.natAbs
  if decide (x < 0) == decide (y < 0) then (q : Int) else -(q : Int)

/-- R112: the operation of add-int. -/
def addIntOp (o : Config.IntOverflow) (a b : Cell) : Except ErrKind Cell :=
  intResult o (sint b + sint a)

/-- R113: the operation of sub-int. -/
def subIntOp (o : Config.IntOverflow) (a b : Cell) : Except ErrKind Cell :=
  intResult o (sint b - sint a)

/-- R114: the operation of mul-int. -/
def mulIntOp (o : Config.IntOverflow) (a b : Cell) : Except ErrKind Cell :=
  intResult o (sint b * sint a)

/-- R115, R175: the operation of div-int: the divisor is tested before the quotient, the result after it. -/
def divIntOp (o : Config.IntOverflow) (a b : Cell) : Except ErrKind Cell :=
  if sint a = 0 then .error .divByZero
  else intResult o (tdiv (sint b) (sint a))

/-- R112: add-int. -/
def execAddInt (s : State) : Host.Outcome State Fault Refusal :=
  retire s (binOp (addIntOp s.params.intOverflow) s)

/-- R113: sub-int. -/
def execSubInt (s : State) : Host.Outcome State Fault Refusal :=
  retire s (binOp (subIntOp s.params.intOverflow) s)

/-- R114: mul-int. -/
def execMulInt (s : State) : Host.Outcome State Fault Refusal :=
  retire s (binOp (mulIntOp s.params.intOverflow) s)

/-- R115: div-int. -/
def execDivInt (s : State) : Host.Outcome State Fault Refusal :=
  retire s (binOp (divIntOp s.params.intOverflow) s)

end Sys2Proof.Machine
end

