-- ==== Sys2Proof/Machine/StackFamily.lean ====
section
/-! DEFINITION. The stack instructions (`41_stack.md` R100 to R102). -/

namespace Sys2Proof.Machine

/-- R100: push-integer(v). -/
def execPushInteger (v : Cell) (s : State) : Host.Outcome State Fault Refusal :=
  retire s (push v s)

/-- R101: push-float(x): the 64 bits of x, unchanged. -/
def execPushFloat (x : Cell) (s : State) : Host.Outcome State Fault Refusal :=
  retire s (push x s)

/-- R102: pop. It raises nothing, on an empty stack either. -/
def execPop (s : State) : Host.Outcome State Fault Refusal :=
  retire s (.ok (dropTop s))

end Sys2Proof.Machine
end

