-- ==== Sys2Proof/Machine/Dispatch.lean ====
section
/-! DEFINITION. `Execute(I)` of R81 with its commit: one arm per instruction. -/

namespace Sys2Proof.Machine

def exec (i : Instr) (s : State) : Host.Outcome State Fault Refusal :=
  match i with
  | .pushInteger v => Sys2Proof.Machine.execPushInteger v s
  | .pushFloat x => Sys2Proof.Machine.execPushFloat x s
  | .pop => Sys2Proof.Machine.execPop s
  | .addInt => Sys2Proof.Machine.execAddInt s
  | .subInt => Sys2Proof.Machine.execSubInt s
  | .mulInt => Sys2Proof.Machine.execMulInt s
  | .divInt => Sys2Proof.Machine.execDivInt s
  | .addFloat => Sys2Proof.Machine.execAddFloat s
  | .subFloat => Sys2Proof.Machine.execSubFloat s
  | .mulFloat => Sys2Proof.Machine.execMulFloat s
  | .divFloat => Sys2Proof.Machine.execDivFloat s

end Sys2Proof.Machine
end

