-- ==== Sys2Proof/Machine/HostInterface.lean ====
section
/-! DEFINITION. The host's commands (`44_host_interface.md` R150 to R159): what each does once it is performed, which are
held while the core runs, and the other event from outside, power-on reset (`70_reset_and_hazards.md` R190). -/

namespace Sys2Proof.Machine

/-- R151, R191: LOAD. A program of at most `CODE_MAX` slots replaces the whole machine state; no slot is checked. A longer
one is answered `OutOfMemory` and changes nothing (D28). -/
def performLoad (slots : List Slot) (s : State) : State :=
  if Params.accepts s.params slots then
    reply (.load slots) .ok none
      { s with code := slots, pc := 0#64, stack := [], runState := .ready, err := none }
  else reply (.load slots) (.error .outOfMemory) none s

/-- R152: START. In READY the run begins, and the response waits for its end (R82, R172); elsewhere `NOT_READY` and
nothing changes. In RUNNING it is held (R157), so that case is never performed. -/
def performStart (s : State) : State :=
  match s.runState with
  | .ready => { s with runState := .running }
  | .empty => reply .start .notReady none s
  | .completed => reply .start .notReady none s
  | .halted => reply .start .notReady none s
  | .running => s

/-- R153, R154: an accessor's response: the cell at the resolved position, or `OutOfBounds`, a response only (R176). -/
def answerRead (c : Command) (index : BitVec 64) (s : State) : State :=
  match (resolve (depth s) index).bind (cellAt s) with
  | some v => reply c .ok (some v) s
  | none => reply c (.error .outOfBounds) none s

/-- R153: READ_INT. The host reads the value as `sint`. -/
def performReadInt (index : BitVec 64) (s : State) : State := answerRead (.readInt index) index s

/-- R154: READ_FLOAT: the same 64 bits, which the host reads as `f64`. -/
def performReadFloat (index : BitVec 64) (s : State) : State := answerRead (.readFloat index) index s

/-- R30: the register numbered `r`; any other number reads 0 (log 15 for lengths of 2^64 and more). -/
def registerValue (s : State) (r : BitVec 64) : BitVec 64 :=
  match r.toNat with
  | 0 => statusWord s
  | 1 => s.pc
  | 2 => BitVec.ofNat 64 (depth s)
  | 3 => BitVec.ofNat 64 (codeLen s)
  | _ => 0#64

/-- R156: READ_REG. -/
def performReadReg (r : BitVec 64) (s : State) : State :=
  reply (.readReg r) .ok (some (registerValue s r)) s

/-- R150: the effect and the response of one command. -/
def perform (c : Command) (s : State) : State :=
  match c with
  | .load slots => performLoad slots s
  | .start => performStart s
  | .readInt index => performReadInt index s
  | .readFloat index => performReadFloat index s
  | .readReg r => performReadReg r s

/-- R157: whether a command is answered at once even during a run: READ_REG 0 alone. -/
def isStatusRead : Command → Bool
  | .readReg r => r == 0#64
  | .load _ => false
  | .start => false
  | .readInt _ => false
  | .readFloat _ => false

/-- R156, R157: during a run every READ_REG 0 that waits is answered, and every other command stays held (log 7). -/
def answerStatusReads (s : State) : State :=
  { s with
    replies := s.replies ++ (s.pending.filter isStatusRead).map fun c =>
      { command := c, response := .ok, value := some (statusWord s) }
    pending := s.pending.filter fun c => !isStatusRead c }

/-- R157: outside a run the oldest command is performed. With none waiting the core holds its state (R184; log 8). -/
def hostStep (s : State) : State :=
  match s.pending with
  | [] => s
  | c :: rest => perform c { s with pending := rest }

/-- R150, R157: the host issues a command, between two steps; it waits behind those issued before it. -/
def issue (c : Command) (s : State) : State := { s with pending := s.pending ++ [c] }

/-- R190: power-on reset of this core, at any time: every field at its reset value, the parameters being the core's own (logs 13 and
18). -/
def powerOn (s : State) : State := { State.reset with params := s.params }

end Sys2Proof.Machine
end

