-- ==== Sys2Proof/Machine/Loop.lean ====
section
/-! DEFINITION. The fetch-decode-execute loop (`40_execution.md` R81 to R84), and placing one slot for the next fetch. -/

namespace Sys2Proof.Machine

/-- R81: `Step()` of a RUNNING core. At `pc = N` the run completes (R82); an illegal slot raises `IllegalInstruction`
(R66 to R68) before anything executes (R175). A fetch at `pc > N` has no slot (log 9). -/
def coreStep (s : State) : Host.Outcome State Fault Refusal :=
  if s.pc.toNat = codeLen s then .next (complete s)
  else
    match fetch s with
    | none => .fault .fetchOutsideCode
    | some w =>
      match decode w with
      | .error _ => .next (halt .illegalInstruction s)
      | .ok i => exec i s

/-- One transition of the whole core (R80): RUNNING, the core steps, the status reads that wait being answered first
(R157; log 7); otherwise the host's oldest command is performed. -/
def machineStep (s : State) : Host.Outcome State Fault Refusal :=
  match s.runState with
  | .running => coreStep (answerStatusReads s)
  | .empty => .next (hostStep s)
  | .ready => .next (hostStep s)
  | .completed => .next (hostStep s)
  | .halted => .next (hostStep s)

/-- Stands for a LOAD and a START of a program with `w` at `pc` (log 8): `w` is code slot `pc`, the code reaching so far,
and the core is RUNNING with `ERR` clear. -/
def placeSlot (w : Slot) (s : State) : State :=
  if s.pc.toNat < s.code.length then
    { s with code := s.code.set s.pc.toNat w, runState := .running, err := none }
  else
    { s with code := s.code ++ [w], pc := BitVec.ofNat 64 s.code.length, runState := .running, err := none }

end Sys2Proof.Machine
end

