-- ==== Sys2Proof/Machine/Step.lean ====
section
/-! DEFINITION. The step function, and placing one instruction where the next step fetches it. -/

namespace Sys2Proof.Machine

/-- One transition of the core (R80, R81, R157). -/
def step (s : State) : Host.Outcome State Fault Refusal := machineStep s

/-- `s` with the instruction whose slot is the low `nbits` bits of `w` (as `decodeTableWord` numbers them) loaded at `pc`
and the run started (log 8). -/
def State.withFetchWord (s : State) (nbits w : Nat) : State :=
  placeSlot (BitVec.ofNat 72 (w % 2 ^ nbits)) s

end Sys2Proof.Machine
end

