-- ==== Sys2Proof/Laws/State.lean ====
section
/-! SUPPORT. What each named update of the state leaves in each field: every lemma is true by unfolding, and simp uses it,
so that no later proof unfolds an update. -/

namespace Sys2Proof.Machine

variable (s : State)

@[simp] theorem advance_pc : (advance s).pc = s.pc + 1#64 := rfl
@[simp] theorem advance_code : (advance s).code = s.code := rfl
@[simp] theorem advance_stack : (advance s).stack = s.stack := rfl
@[simp] theorem advance_runState : (advance s).runState = s.runState := rfl
@[simp] theorem advance_err : (advance s).err = s.err := rfl
@[simp] theorem advance_pending : (advance s).pending = s.pending := rfl
@[simp] theorem advance_replies : (advance s).replies = s.replies := rfl
@[simp] theorem advance_params : (advance s).params = s.params := rfl

@[simp] theorem reply_pc (c : Command) (r : Response) (v : Option Cell) : (reply c r v s).pc = s.pc := rfl
@[simp] theorem reply_code (c : Command) (r : Response) (v : Option Cell) : (reply c r v s).code = s.code := rfl
@[simp] theorem reply_stack (c : Command) (r : Response) (v : Option Cell) : (reply c r v s).stack = s.stack := rfl
@[simp] theorem reply_runState (c : Command) (r : Response) (v : Option Cell) : (reply c r v s).runState = s.runState := rfl
@[simp] theorem reply_err (c : Command) (r : Response) (v : Option Cell) : (reply c r v s).err = s.err := rfl
@[simp] theorem reply_pending (c : Command) (r : Response) (v : Option Cell) : (reply c r v s).pending = s.pending := rfl
@[simp] theorem reply_replies (c : Command) (r : Response) (v : Option Cell) : (reply c r v s).replies = s.replies ++ [{ command := c, response := r, value := v }] := rfl
@[simp] theorem reply_params (c : Command) (r : Response) (v : Option Cell) : (reply c r v s).params = s.params := rfl

@[simp] theorem halt_pc (e : ErrKind) : (halt e s).pc = s.pc := rfl
@[simp] theorem halt_code (e : ErrKind) : (halt e s).code = s.code := rfl
@[simp] theorem halt_stack (e : ErrKind) : (halt e s).stack = s.stack := rfl
@[simp] theorem halt_runState (e : ErrKind) : (halt e s).runState = .halted := rfl
@[simp] theorem halt_err (e : ErrKind) : (halt e s).err = some e := rfl
@[simp] theorem halt_pending (e : ErrKind) : (halt e s).pending = s.pending := rfl
@[simp] theorem halt_replies (e : ErrKind) : (halt e s).replies = s.replies ++ [{ command := .start, response := .error e, value := none }] := rfl
@[simp] theorem halt_params (e : ErrKind) : (halt e s).params = s.params := rfl

@[simp] theorem complete_pc : (complete s).pc = s.pc := rfl
@[simp] theorem complete_code : (complete s).code = s.code := rfl
@[simp] theorem complete_stack : (complete s).stack = s.stack := rfl
@[simp] theorem complete_runState : (complete s).runState = .completed := rfl
@[simp] theorem complete_err : (complete s).err = s.err := rfl
@[simp] theorem complete_pending : (complete s).pending = s.pending := rfl
@[simp] theorem complete_replies : (complete s).replies = s.replies ++ [{ command := .start, response := .ok, value := none }] := rfl
@[simp] theorem complete_params : (complete s).params = s.params := rfl

@[simp] theorem dropTop_pc : (dropTop s).pc = s.pc := rfl
@[simp] theorem dropTop_code : (dropTop s).code = s.code := rfl
@[simp] theorem dropTop_stack : (dropTop s).stack = s.stack.tail := rfl
@[simp] theorem dropTop_runState : (dropTop s).runState = s.runState := rfl
@[simp] theorem dropTop_err : (dropTop s).err = s.err := rfl
@[simp] theorem dropTop_pending : (dropTop s).pending = s.pending := rfl
@[simp] theorem dropTop_replies : (dropTop s).replies = s.replies := rfl
@[simp] theorem dropTop_params : (dropTop s).params = s.params := rfl

@[simp] theorem answerStatusReads_pc : (answerStatusReads s).pc = s.pc := rfl
@[simp] theorem answerStatusReads_code : (answerStatusReads s).code = s.code := rfl
@[simp] theorem answerStatusReads_stack : (answerStatusReads s).stack = s.stack := rfl
@[simp] theorem answerStatusReads_runState : (answerStatusReads s).runState = s.runState := rfl
@[simp] theorem answerStatusReads_err : (answerStatusReads s).err = s.err := rfl
@[simp] theorem answerStatusReads_pending : (answerStatusReads s).pending = s.pending.filter fun c => !isStatusRead c := rfl
@[simp] theorem answerStatusReads_replies : (answerStatusReads s).replies = s.replies ++ (s.pending.filter isStatusRead).map fun c =>
      { command := c, response := .ok, value := some (statusWord s) } := rfl
@[simp] theorem answerStatusReads_params : (answerStatusReads s).params = s.params := rfl

@[simp] theorem issue_pc (c : Command) : (issue c s).pc = s.pc := rfl
@[simp] theorem issue_code (c : Command) : (issue c s).code = s.code := rfl
@[simp] theorem issue_stack (c : Command) : (issue c s).stack = s.stack := rfl
@[simp] theorem issue_runState (c : Command) : (issue c s).runState = s.runState := rfl
@[simp] theorem issue_err (c : Command) : (issue c s).err = s.err := rfl
@[simp] theorem issue_pending (c : Command) : (issue c s).pending = s.pending ++ [c] := rfl
@[simp] theorem issue_replies (c : Command) : (issue c s).replies = s.replies := rfl
@[simp] theorem issue_params (c : Command) : (issue c s).params = s.params := rfl

@[simp] theorem reset_pc : State.reset.pc = 0#64 := rfl
@[simp] theorem reset_code : State.reset.code = [] := rfl
@[simp] theorem reset_stack : State.reset.stack = [] := rfl
@[simp] theorem reset_runState : State.reset.runState = .empty := rfl
@[simp] theorem reset_err : State.reset.err = none := rfl
@[simp] theorem reset_pending : State.reset.pending = [] := rfl
@[simp] theorem reset_replies : State.reset.replies = [] := rfl
@[simp] theorem reset_params : State.reset.params = resetParams := rfl

@[simp] theorem depth_advance : depth (advance s) = depth s := rfl
@[simp] theorem codeLen_advance : codeLen (advance s) = codeLen s := rfl
@[simp] theorem cellAt_advance (i : Nat) : cellAt (advance s) i = cellAt s i := rfl
@[simp] theorem depth_reply (c : Command) (r : Response) (v : Option Cell) : depth (reply c r v s) = depth s := rfl
@[simp] theorem codeLen_reply (c : Command) (r : Response) (v : Option Cell) : codeLen (reply c r v s) = codeLen s := rfl
@[simp] theorem cellAt_reply (c : Command) (r : Response) (v : Option Cell) (i : Nat) : cellAt (reply c r v s) i = cellAt s i := rfl
@[simp] theorem fetch_reply (c : Command) (r : Response) (v : Option Cell) : fetch (reply c r v s) = fetch s := rfl
@[simp] theorem depth_halt (e : ErrKind) : depth (halt e s) = depth s := rfl
@[simp] theorem codeLen_halt (e : ErrKind) : codeLen (halt e s) = codeLen s := rfl
@[simp] theorem cellAt_halt (e : ErrKind) (i : Nat) : cellAt (halt e s) i = cellAt s i := rfl
@[simp] theorem fetch_halt (e : ErrKind) : fetch (halt e s) = fetch s := rfl
@[simp] theorem depth_complete : depth (complete s) = depth s := rfl
@[simp] theorem codeLen_complete : codeLen (complete s) = codeLen s := rfl
@[simp] theorem cellAt_complete (i : Nat) : cellAt (complete s) i = cellAt s i := rfl
@[simp] theorem fetch_complete : fetch (complete s) = fetch s := rfl
@[simp] theorem codeLen_dropTop : codeLen (dropTop s) = codeLen s := rfl
@[simp] theorem fetch_dropTop : fetch (dropTop s) = fetch s := rfl
@[simp] theorem depth_answerStatusReads : depth (answerStatusReads s) = depth s := rfl
@[simp] theorem codeLen_answerStatusReads : codeLen (answerStatusReads s) = codeLen s := rfl
@[simp] theorem cellAt_answerStatusReads (i : Nat) : cellAt (answerStatusReads s) i = cellAt s i := rfl
@[simp] theorem fetch_answerStatusReads : fetch (answerStatusReads s) = fetch s := rfl
@[simp] theorem depth_issue (c : Command) : depth (issue c s) = depth s := rfl
@[simp] theorem codeLen_issue (c : Command) : codeLen (issue c s) = codeLen s := rfl
@[simp] theorem cellAt_issue (c : Command) (i : Nat) : cellAt (issue c s) i = cellAt s i := rfl
@[simp] theorem fetch_issue (c : Command) : fetch (issue c s) = fetch s := rfl

theorem depth_dropTop : depth (dropTop s) = depth s - 1 := by simp [depth]

theorem depth_eq_length : depth s = s.stack.length := rfl

theorem codeLen_eq_length : codeLen s = s.code.length := rfl

end Sys2Proof.Machine
end

