-- ==== Sys2Proof/Laws/Ops.lean ====
section
/-! SUPPORT. What each shared operation can do, said once: later proofs cite these and unfold no operation. -/

namespace Sys2Proof.Machine

/-- R85: `depth = STACK_CAP`, read off the parameter as a number. -/
theorem capReached_iff (c : Config.StackCap) (d : Nat) : capReached c d = true ↔ capacity c = some d := by
  rcases d with _ | _ | d <;> cases c <;> simp [capReached, capacity]; omega

theorem capReached_false_of_lt {c : Config.StackCap} {d e : Nat} (hc : capHolds c e = true) (h : d < e) :
    capReached c d = false := by
  rcases d with _ | _ | d <;> cases c <;> simp_all [capReached, capHolds]; omega

theorem capHolds_succ {c : Config.StackCap} {d : Nat} (hc : capHolds c d = true) (h : capReached c d = false) :
    capHolds c (d + 1) = true := by
  rcases d with _ | _ | d <;> cases c <;> simp_all [capReached, capHolds]; omega

theorem capHolds_mono {c : Config.StackCap} {d e : Nat} (hc : capHolds c e = true) (h : d ≤ e) :
    capHolds c d = true := by
  cases c <;> simp_all [capHolds]; omega

theorem capHolds_zero (c : Config.StackCap) : capHolds c 0 = true := by cases c <;> simp [capHolds]

/-- R85: below the capacity a push stores above the top. -/
theorem push_room (v : Cell) {s : State} (h : capReached s.params.stackCap s.stack.length = false) :
    push v s = .ok { s with stack := v :: s.stack } :=
  by simp [push, depth, h]

/-- R85: at the capacity a push raises `OutOfMemory`. -/
theorem push_full (v : Cell) {s : State} (h : capReached s.params.stackCap s.stack.length = true) :
    push v s = .error .outOfMemory := by simp [push, depth, h]

/-- R85: everything a push can answer with a state. -/
theorem push_ok {v : Cell} {s t : State} (h : push v s = .ok t) :
    capReached s.params.stackCap s.stack.length = false ∧ t = { s with stack := v :: s.stack } := by
  cases hc : capReached s.params.stackCap s.stack.length with
  | true => rw [push_full v hc] at h; cases h
  | false => rw [push_room v hc] at h; cases h; exact ⟨rfl, rfl⟩

/-- R87: a binary operation on two cells answers what its operation answers, the result replacing both operands. -/
theorem binOp_two {f : Cell → Cell → Except ErrKind Cell} {s : State} {a b : Cell} {rest : List Cell}
    (hs : s.stack = a :: b :: rest) :
    binOp f s = match f a b with
      | .error e => .error e
      | .ok r => push r { s with stack := rest } := by
  cases hf : f a b <;> simp only [binOp, popTwo, hs, hf]

/-- R86: with fewer than two cells, `OutOfBounds`. -/
theorem binOp_short (f : Cell → Cell → Except ErrKind Cell) {s : State} (h : depth s < 2) :
    binOp f s = .error .outOfBounds := by
  unfold binOp popTwo
  rcases hs : s.stack with _ | ⟨a, _ | ⟨b, rest⟩⟩
  · rfl
  · rfl
  · simp only [depth, hs, List.length_cons] at h; omega

/-- R87: everything `BinOp` can answer with a state. -/
theorem binOp_ok {f : Cell → Cell → Except ErrKind Cell} {s t : State} (h : binOp f s = .ok t) :
    ∃ a b rest r, s.stack = a :: b :: rest ∧ f a b = .ok r ∧ t = { s with stack := r :: rest } := by
  by_cases hd : depth s < 2
  · rw [binOp_short f hd] at h; cases h
  · rcases hs : s.stack with _ | ⟨a, _ | ⟨b, rest⟩⟩
    · simp [depth, hs] at hd
    · simp [depth, hs] at hd
    · rw [binOp_two hs] at h
      cases hf : f a b with
      | error e => simp only [hf] at h; cases h
      | ok r =>
        simp only [hf] at h
        exact ⟨a, b, rest, r, rfl, hf, (push_ok h).2⟩

/-- R87: in a stack within its capacity, the push inside `BinOp` raises nothing. -/
theorem binOp_result {f : Cell → Cell → Except ErrKind Cell} {s : State} {a b r : Cell} {rest : List Cell}
    (hs : s.stack = a :: b :: rest) (hc : capHolds s.params.stackCap (depth s) = true) (hf : f a b = .ok r) :
    binOp f s = .ok { s with stack := r :: rest } := by
  rw [binOp_two hs, hf]
  exact push_room (s := { s with stack := rest }) r (capReached_false_of_lt hc (by simp [depth, hs]))

/-- R87, R84: an operation that raises makes `BinOp` raise the same. -/
theorem binOp_raises {f : Cell → Cell → Except ErrKind Cell} {s : State} {a b : Cell} {rest : List Cell} {e : ErrKind}
    (hs : s.stack = a :: b :: rest) (hf : f a b = .error e) : binOp f s = .error e := by
  rw [binOp_two hs, hf]

@[simp] theorem retire_ok (s t : State) : retire s (.ok t) = .next (advance t) := rfl

@[simp] theorem retire_error (s : State) (e : ErrKind) : retire s (.error e) = .next (halt e s) := rfl

/-- R83, R84: everything an instruction can end in. -/
theorem retire_cases {s u : State} {r : Except ErrKind State} (h : retire s r = .next u) :
    (∃ t, r = .ok t ∧ u = advance t) ∨ (∃ e, r = .error e ∧ u = halt e s) := by
  cases r with
  | ok t => cases h; exact .inl ⟨t, rfl, rfl⟩
  | error e => cases h; exact .inr ⟨e, rfl, rfl⟩

end Sys2Proof.Machine
end

