-- ==== Sys2Proof/Laws/Memory.lean ====
section
/-! SUPPORT. Every operation over the two spaces keeps their canonical form, and reset has it. -/

namespace Sys2Proof.Machine

theorem reset_memory_wf : Memory.wf State.reset := ⟨Nat.zero_le _, capHolds_zero _⟩

theorem memory_wf_congr {s t : State} (hc : t.code = s.code) (hs : t.stack = s.stack) (hp : t.params = s.params) :
    Memory.wf t ↔ Memory.wf s := by simp only [Memory.wf, hc, hs, hp]

theorem push_keeps_wf {v : Cell} {s t : State} (h : push v s = .ok t) (hs : Memory.wf s) : Memory.wf t := by
  obtain ⟨hf, rfl⟩ := push_ok h
  exact ⟨hs.1, capHolds_succ hs.2 hf⟩

theorem dropTop_keeps_wf {s : State} (hs : Memory.wf s) : Memory.wf (dropTop s) :=
  ⟨hs.1, capHolds_mono hs.2 (by simp)⟩

theorem binOp_keeps_wf {f : Cell → Cell → Except ErrKind Cell} {s t : State} (h : binOp f s = .ok t)
    (hs : Memory.wf s) : Memory.wf t := by
  obtain ⟨a, b, rest, r, hst, -, rfl⟩ := binOp_ok h
  exact ⟨hs.1, capHolds_mono hs.2 (by simp [hst])⟩

theorem advance_keeps_wf {s : State} (hs : Memory.wf s) : Memory.wf (advance s) := hs

theorem reply_keeps_wf {c : Command} {r : Response} {v : Option Cell} {s : State} (hs : Memory.wf s) :
    Memory.wf (reply c r v s) := hs

theorem halt_keeps_wf {e : ErrKind} {s : State} (hs : Memory.wf s) : Memory.wf (halt e s) := hs

theorem complete_keeps_wf {s : State} (hs : Memory.wf s) : Memory.wf (complete s) := hs

theorem answerStatusReads_keeps_wf {s : State} (hs : Memory.wf s) : Memory.wf (answerStatusReads s) := hs

theorem issue_keeps_wf {c : Command} {s : State} (hs : Memory.wf s) : Memory.wf (issue c s) := hs

theorem performLoad_keeps_wf {slots : List Slot} {s : State} (hs : Memory.wf s) : Memory.wf (performLoad slots s) := by
  unfold performLoad
  split
  · next h => exact ⟨of_decide_eq_true h, capHolds_zero _⟩
  · exact hs

theorem powerOn_wf (s : State) : Memory.wf (powerOn s) := ⟨Nat.zero_le _, capHolds_zero _⟩

/-- R24: a push leaves every cell but the new top as it was. -/
theorem cellAt_push_of_ne {v : Cell} {s t : State} (h : push v s = .ok t) {i : Nat} (hi : i ≠ depth s) :
    cellAt t i = cellAt s i := by
  obtain ⟨-, rfl⟩ := push_ok h
  simp only [depth] at hi
  simp only [cellAt, List.reverse_cons]
  rcases Nat.lt_or_gt_of_ne hi with h' | h'
  · exact List.getElem?_append_left (by simpa using h')
  · rw [List.getElem?_eq_none (by simp; omega), List.getElem?_eq_none (by simp; omega)]

/-- R85: the cell pushed is the new top. -/
theorem cellAt_push_top {v : Cell} {s t : State} (h : push v s = .ok t) : cellAt t (depth s) = some v := by
  obtain ⟨-, rfl⟩ := push_ok h
  simp [cellAt, depth]

end Sys2Proof.Machine
end

