-- ==== Sys2Proof/Safety.lean ====
section
/-! DEFINITION. The terms claims use: the invariant of the core, what may be observed of a run (`60_exceptions.md` R174),
the typing discipline the core does not check (`70_reset_and_hazards.md` R195), and what it is to be correctly rounded
(`43_float_alu.md` R131). -/

namespace Sys2Proof.Machine

/-- What holds of the core at every point. -/
structure State.Inv (s : State) : Prop where
  /-- R6. -/
  params : s.params.wf
  /-- R23, R25: the two spaces are within their capacities. -/
  memory : Memory.wf s
  /-- R22: `pc <= N`. -/
  pc_le : s.pc.toNat ≤ codeLen s
  /-- Each committed instruction adds at most one cell, so `depth` never outgrows `pc` (from R25, R83). -/
  depth_le : depth s ≤ s.pc.toNat
  /-- R28: `ERR` reads `NONE` in every state except HALTED, and there it holds a kind. -/
  err_iff : s.err.isSome = true ↔ s.runState = .halted
  /-- R27, R32: nothing is loaded in EMPTY. -/
  empty : s.runState = .empty → s.code = [] ∧ s.pc = 0#64
  /-- R27, R32: READY is the state a LOAD leaves. -/
  ready : s.runState = .ready → s.pc = 0#64
  /-- R27, R82: COMPLETED is reached at `pc = N` alone. -/
  completed : s.runState = .completed → s.pc.toNat = codeLen s
  /-- R172, R173: HALTED leaves `pc` on the failing instruction, which is a slot of the code. -/
  halted : s.runState = .halted → s.pc.toNat < codeLen s

/-- What a claim about a program may read of a state (R174, R159). -/
inductive Observation where
  /-- No run has ended. -/
  | pending
  /-- COMPLETED: the final stack, bottom first. -/
  | result (cells : List Cell)
  /-- HALTED: a fault, never a result; its stack is not shown. -/
  | fault (e : Option ErrKind)
  deriving DecidableEq, Repr

/-- R174: the observation treats a HALTED state as a fault (log 5). -/
def observe (s : State) : Observation :=
  match s.runState with
  | .empty => .pending
  | .ready => .pending
  | .running => .pending
  | .completed => .result s.stack.reverse
  | .halted => .fault s.err

/-- R26, R195: the producer type of a cell, a ghost that no rule of the core reads (log 18). -/
inductive CellType where
  | integer
  | float
  deriving DecidableEq, Repr

/-- R195: the types after an instruction, top first; none where it would read a cell under the other type, or find fewer
cells than it needs. -/
def typeStep : Instr → List CellType → Option (List CellType)
  | .pushInteger _, ts => some (.integer :: ts)
  | .pushFloat _, ts => some (.float :: ts)
  | .pop, ts => some ts.tail
  | .addInt, .integer :: .integer :: ts => some (.integer :: ts)
  | .subInt, .integer :: .integer :: ts => some (.integer :: ts)
  | .mulInt, .integer :: .integer :: ts => some (.integer :: ts)
  | .divInt, .integer :: .integer :: ts => some (.integer :: ts)
  | .addFloat, .float :: .float :: ts => some (.float :: ts)
  | .subFloat, .float :: .float :: ts => some (.float :: ts)
  | .mulFloat, .float :: .float :: ts => some (.float :: ts)
  | .divFloat, .float :: .float :: ts => some (.float :: ts)
  | .addInt, _ => none
  | .subInt, _ => none
  | .mulInt, _ => none
  | .divInt, _ => none
  | .addFloat, _ => none
  | .subFloat, _ => none
  | .mulFloat, _ => none
  | .divFloat, _ => none

/-- R195: the software duty: a program that keeps the typing discipline from the stack types given. -/
def keepsTypes : List Instr → List CellType → Bool
  | [], _ => true
  | i :: rest, ts =>
    match typeStep i ts with
    | some ts' => keepsTypes rest ts'
    | none => false

/-- R132: a NaN pattern: bits 62:52 all ones and bits 51:0 not all zero. -/
def isNaN (v : Cell) : Bool := v.extractLsb' 52 11 == 0x7FF#11 && v.extractLsb' 0 52 != 0#52

/-- How far the magnitude `sig * 2^exp` is from the magnitude `num / den`, times `den`. -/
def gap (num den sig exp : Nat) : Nat :=
  let m := den * (sig * 2 ^ exp)
  if num ≤ m then m - num else num - m

/-- R134: the midpoint, in units of 2^-1074, between the largest finite binary64 number, (2^53 - 1) * 2^2045 units, and the
number that would follow it. -/
def overflowUnits : Nat := (2 ^ 54 - 1) * 2 ^ 2044

/-- R131, R133, R134: `v` is the magnitude `num / den` (in units of 2^-1074) with sign `neg`, rounded to nearest, ties to
even. From the midpoint above the largest finite number on it is infinity; below it `v` is finite, no number of that sign is
nearer, and if another is as near then `v` is the even one. -/
def RoundedTo (neg : Bool) (num den : Nat) (v : Cell) : Prop :=
  (den * overflowUnits ≤ num → f64 v = .inf neg) ∧
  (num < den * overflowUnits → ∃ sig exp, f64 v = .finite neg sig exp ∧
    ∀ w sig' exp', f64 w = .finite neg sig' exp' →
      gap num den sig exp ≤ gap num den sig' exp' ∧
      (gap num den sig exp = gap num den sig' exp' → w ≠ v → v.toNat % 2 = 0))

end Sys2Proof.Machine
end

