-- ==== Sys2Proof/Laws/Step.lean ====
section
/-! SUPPORT. What one step can do, said once, for `exec`, for the loop and for the host's turn. -/

namespace Sys2Proof.Machine

/-- R81: what an instruction writes before it commits, or the error it raises: exec with the commit taken off. -/
def effect (i : Instr) (s : State) : Except ErrKind State :=
  match i with
  | .pushInteger v => push v s
  | .pushFloat x => push x s
  | .pop => .ok (dropTop s)
  | .addInt => binOp (addIntOp s.params.intOverflow) s
  | .subInt => binOp (subIntOp s.params.intOverflow) s
  | .mulInt => binOp (mulIntOp s.params.intOverflow) s
  | .divInt => binOp (divIntOp s.params.intOverflow) s
  | .addFloat => binOp addFloatOp s
  | .subFloat => binOp subFloatOp s
  | .mulFloat => binOp mulFloatOp s
  | .divFloat => binOp divFloatOp s

theorem exec_eq_retire (i : Instr) (s : State) : exec i s = retire s (effect i s) := by
  cases i <;> rfl

/-- An instruction writes the stack alone, and leaves at most one cell more than it found. -/
theorem effect_ok {i : Instr} {s t : State} (h : effect i s = .ok t) :
    ∃ cells, t = { s with stack := cells } ∧ cells.length ≤ s.stack.length + 1 ∧ (Memory.wf s → Memory.wf t) := by
  have hpush : ∀ v, push v s = .ok t →
      ∃ cells, t = { s with stack := cells } ∧ cells.length ≤ s.stack.length + 1 ∧ (Memory.wf s → Memory.wf t) := by
    intro v hv
    exact ⟨v :: s.stack, (push_ok hv).2, by simp, push_keeps_wf hv⟩
  have hbin : ∀ f, binOp f s = .ok t →
      ∃ cells, t = { s with stack := cells } ∧ cells.length ≤ s.stack.length + 1 ∧ (Memory.wf s → Memory.wf t) := by
    intro f hf
    obtain ⟨a, b, rest, r, hst, -, rfl⟩ := binOp_ok hf
    exact ⟨r :: rest, rfl, by simp [hst], binOp_keeps_wf hf⟩
  cases i with
  | pushInteger v => exact hpush v h
  | pushFloat x => exact hpush x h
  | pop => cases h; exact ⟨s.stack.tail, rfl, by simp; omega, dropTop_keeps_wf⟩
  | addInt => exact hbin _ h
  | subInt => exact hbin _ h
  | mulInt => exact hbin _ h
  | divInt => exact hbin _ h
  | addFloat => exact hbin addFloatOp h
  | subFloat => exact hbin subFloatOp h
  | mulFloat => exact hbin mulFloatOp h
  | divFloat => exact hbin divFloatOp h

/-- Everything an instruction can do: it commits a new stack and advances, or it halts the core. -/
theorem exec_cases (i : Instr) (s : State) :
    (∃ cells, effect i s = .ok { s with stack := cells } ∧ cells.length ≤ s.stack.length + 1 ∧
      (Memory.wf s → Memory.wf { s with stack := cells }) ∧ exec i s = .next (advance { s with stack := cells })) ∨
    (∃ e, effect i s = .error e ∧ exec i s = .next (halt e s)) := by
  rw [exec_eq_retire]
  cases h : effect i s with
  | error e => exact .inr ⟨e, rfl, rfl⟩
  | ok t =>
    obtain ⟨cells, rfl, hl, hw⟩ := effect_ok h
    exact .inl ⟨cells, rfl, hl, hw, rfl⟩

/-- R81: everything a step of a RUNNING core can do. -/
theorem coreStep_cases (s : State) :
    (s.pc.toNat = codeLen s ∧ coreStep s = .next (complete s)) ∨
    (codeLen s < s.pc.toNat ∧ coreStep s = .fault .fetchOutsideCode) ∨
    (s.pc.toNat < codeLen s ∧ ∃ w, fetch s = some w ∧
      ((∃ e, decode w = .error e ∧ coreStep s = .next (halt .illegalInstruction s)) ∨
       (∃ i, decode w = .ok i ∧ coreStep s = exec i s))) := by
  unfold coreStep
  by_cases hend : s.pc.toNat = codeLen s
  · exact .inl ⟨hend, if_pos hend⟩
  · rw [if_neg hend]
    rcases Nat.lt_or_gt_of_ne hend with hlt | hgt
    · refine .inr (.inr ⟨hlt, s.code[s.pc.toNat], List.getElem?_eq_getElem hlt, ?_⟩)
      rw [show fetch s = some s.code[s.pc.toNat] from List.getElem?_eq_getElem hlt]
      cases hd : decode s.code[s.pc.toNat] with
      | error e => exact .inl ⟨e, rfl, by simp [hd]⟩
      | ok i => exact .inr ⟨i, rfl, by simp [hd]⟩
    · refine .inr (.inl ⟨hgt, ?_⟩)
      rw [show fetch s = none from List.getElem?_eq_none (Nat.le_of_lt hgt)]

/-- R80: a RUNNING core steps, the waiting status reads being answered first. -/
theorem step_running {s : State} (h : s.runState = .running) : step s = coreStep (answerStatusReads s) := by
  simp [step, machineStep, h]

/-- R157: outside a run the host's oldest command is performed. -/
theorem step_not_running {s : State} (h : s.runState ≠ .running) : step s = .next (hostStep s) := by
  cases hr : s.runState <;> simp_all [step, machineStep]

end Sys2Proof.Machine
end

