-- ==== Sys2Proof/Certificates/Slice0/Obligations.lean ====
section
/-! DEFINITION. The statements for the provers, from the numbered rules of spec/. Each `def Obligations.<Name> : Prop`
states what its docstring says; the words the statements share stand first, under `Sys2Proof.Claims`. -/

namespace Sys2Proof.Claims

open Sys2Proof.Machine

/-- The slot `{op, 0}` decodes to `i`, and `{op, imm}` to nothing for any other `imm` (R64, R68). -/
def EncodedAs (i : Instr) (op : Byte) : Prop :=
  decode (mkSlot op 0#64) = .ok i ∧
  ∀ imm, imm ≠ 0#64 → decode (mkSlot op imm) = .error (.nonzeroImmediate op imm)

/-- The eight ALU instructions (R87). -/
def IsAlu (i : Instr) : Prop :=
  i = .addInt ∨ i = .subInt ∨ i = .mulInt ∨ i = .divInt ∨
  i = .addFloat ∨ i = .subFloat ∨ i = .mulFloat ∨ i = .divFloat

/-- The state after a halt with error `e` (R172), every field written out: `ERR`, `RUN_STATE` and START's response. -/
def haltedWith (e : ErrKind) (s : State) : State :=
  { pc := s.pc, code := s.code, stack := s.stack, runState := .halted, err := some e, pending := s.pending
    replies := s.replies ++ [{ command := .start, response := .error e, value := none }], params := s.params }

/-- The state after an instruction that commits and leaves the cells `cells` (R83), every field written out. -/
def committed (cells : List Cell) (s : State) : State :=
  { pc := s.pc + 1#64, code := s.code, stack := cells, runState := s.runState, err := s.err, pending := s.pending
    replies := s.replies, params := s.params }

/-- R26: the instructions that produce integer cells: push-integer and the integer unit. -/
def ProducesInteger (i : Instr) : Prop :=
  (∃ v, i = .pushInteger v) ∨ i = .addInt ∨ i = .subInt ∨ i = .mulInt ∨ i = .divInt

/-- R26: the instructions that produce float cells: push-float and the floating-point unit. -/
def ProducesFloat (i : Instr) : Prop :=
  (∃ x, i = .pushFloat x) ∨ i = .addFloat ∨ i = .subFloat ∨ i = .mulFloat ∨ i = .divFloat

/-- Instruction `i` does the same in `t` and in `u`: it commits the same cells in both, or raises the same error in both. -/
def SameOutcome (i : Instr) (t u : State) : Prop :=
  (∃ cells, exec i t = .next (committed cells t) ∧ exec i u = .next (committed cells u)) ∨
  (∃ e, exec i t = .next (haltedWith e t) ∧ exec i u = .next (haltedWith e u))

/-- The state after a host command that changes nothing but gives one response (R150). -/
def answered (c : Command) (r : Response) (v : Option Cell) (rest : List Command) (s : State) : State :=
  { pc := s.pc, code := s.code, stack := s.stack, runState := s.runState, err := s.err, pending := rest
    replies := s.replies ++ [{ command := c, response := r, value := v }], params := s.params }

/-- R10: a mathematical result fits in 64 signed bits. -/
def Fits (n : Int) : Prop := -(2 ^ 63) ≤ n ∧ n < 2 ^ 63

/-- Two integers are the same modulo 2^64. -/
def SameMod64 (m n : Int) : Prop := ∃ k : Int, m - n = k * 2 ^ 64

/-- The shape add-int, sub-int and mul-int share (R110, R111, R86): `f b a` is the exact result. -/
def IntegerRule (i : Instr) (op : Byte) (f : Int → Int → Int) : Prop :=
  EncodedAs i op ∧
  (∀ s : State, depth s < 2 → exec i s = .next (haltedWith .outOfBounds s)) ∧
  ∀ (s : State) (a b : Cell) (rest : List Cell), s.stack = a :: b :: rest →
    capHolds s.params.stackCap (depth s) = true →
    (Fits (f b.toInt a.toInt) →
      ∃ r : Cell, exec i s = .next (committed (r :: rest) s) ∧ r.toInt = f b.toInt a.toInt) ∧
    (¬ Fits (f b.toInt a.toInt) → s.params.intOverflow = .wrap →
      ∃ r : Cell, exec i s = .next (committed (r :: rest) s) ∧ SameMod64 r.toInt (f b.toInt a.toInt)) ∧
    (¬ Fits (f b.toInt a.toInt) → s.params.intOverflow = .fault →
      exec i s = .next (haltedWith .intOverflow s))

/-- What a run may hold at pc while the core runs: the reads of STATUS answered, nothing executed yet (R157). -/
def statusAnswered (s : State) : State :=
  { pc := s.pc, code := s.code, stack := s.stack, runState := s.runState, err := s.err
    pending := s.pending.filter fun c => decide (c ≠ .readReg 0#64)
    replies := s.replies ++ (s.pending.filter fun c => decide (c = .readReg 0#64)).map fun c =>
      { command := c, response := .ok, value := some (statusWord s) }
    params := s.params }

/-- R171, R175: the condition under which an instruction raises an error, in the table's words. -/
def ErrorCause (i : Instr) (s : State) : ErrKind → Prop
  | .outOfBounds => IsAlu i ∧ depth s < 2
  | .outOfMemory => (∃ v, i = .pushInteger v ∨ i = .pushFloat v) ∧ capacity s.params.stackCap = some (depth s)
  | .divByZero => ∃ a b rest, s.stack = a :: b :: rest ∧
      ((i = .divInt ∧ a.toInt = 0) ∨ (i = .divFloat ∧ (a = 0#64 ∨ a = 0x8000000000000000#64)))
  | .intOverflow => s.params.intOverflow = .fault ∧ ∃ a b rest, s.stack = a :: b :: rest ∧
      ((i = .addInt ∧ ¬ Fits (b.toInt + a.toInt)) ∨ (i = .subInt ∧ ¬ Fits (b.toInt - a.toInt)) ∨
       (i = .mulInt ∧ ¬ Fits (b.toInt * a.toInt)) ∨ (i = .divInt ∧ b.toInt = -(2 ^ 63) ∧ a.toInt = -1))
  | .illegalInstruction => False

end Sys2Proof.Claims

open Sys2Proof Sys2Proof.Machine Sys2Proof.Claims

/-! ### Encoding -/

/-- R66, R62: the encoding column; `Decode(Encode(I)) = I`; a slot decodes to `I` only if it is the slot of `I`, so `Decode`
is injective on legal slots; and a slot decodes to nothing exactly when its opcode is unassigned or its immediate stray. -/
def Obligations.DecodeEncodeAgree : Prop :=
  (∀ v, encode (.pushInteger v) = mkSlot 0x00#8 v) ∧ (∀ x, encode (.pushFloat x) = mkSlot 0x01#8 x) ∧
  encode .pop = mkSlot 0x02#8 0#64 ∧ encode .addInt = mkSlot 0x03#8 0#64 ∧ encode .subInt = mkSlot 0x04#8 0#64 ∧
  encode .mulInt = mkSlot 0x05#8 0#64 ∧ encode .divInt = mkSlot 0x06#8 0#64 ∧ encode .addFloat = mkSlot 0x07#8 0#64 ∧
  encode .subFloat = mkSlot 0x08#8 0#64 ∧ encode .mulFloat = mkSlot 0x09#8 0#64 ∧
  encode .divFloat = mkSlot 0x0A#8 0#64 ∧
  (∀ i, decode (encode i) = .ok i) ∧
  (∀ w i, decode w = .ok i → w = encode i) ∧
  (∀ w, (∃ e, decode w = .error e) ↔
    0x0B ≤ (slotOp w).toNat ∨ (0x02 ≤ (slotOp w).toNat ∧ (slotOp w).toNat ≤ 0x0A ∧ slotImm w ≠ 0#64))

/-- R61, R63: the two fields of a slot, bit by bit: its value is `OP * 2^64 + IMM`, and nothing of it is lost. -/
def Obligations.SlotFieldsAreWholeSlot : Prop :=
  ∀ w : Slot, w.toNat = (slotOp w).toNat * 2 ^ 64 + (slotImm w).toNat ∧
    (∀ k, k < 64 → (slotImm w).getLsbD k = w.getLsbD k) ∧ (∀ k, k < 8 → (slotOp w).getLsbD k = w.getLsbD (64 + k))

/-- R69: every slot is either one of the legal slots of R62, and then the check passes it and it decodes, or illegal by R67 or
R68, and then the check refuses it and it decodes to nothing: there is no third kind. -/
def Obligations.EverySlotLegalOrIllegal : Prop :=
  ∀ w : Slot,
    (Slot.wellFormed w = true ∧ ∃ i, decode w = .ok i ∧ w = mkSlot (opcode i) (immediate i)) ∨
    (Slot.wellFormed w = false ∧ (∃ e, decode w = .error e) ∧
      (0x0B ≤ (slotOp w).toNat ∨ (0x02 ≤ (slotOp w).toNat ∧ (slotOp w).toNat ≤ 0x0A ∧ slotImm w ≠ 0#64)))

/-- Words of the table of `30_encoding.md` section 7, written out, decode to the instructions they stand for. -/
def Obligations.ListedSlotsDecode : Prop :=
  decode 0x000000000000000001#72 = .ok (.pushInteger 1#64) ∧
  decode 0x00FFFFFFFFFFFFFFFD#72 = .ok (.pushInteger (-3#64)) ∧
  decode 0x013FF199999999999A#72 = .ok (.pushFloat 0x3FF199999999999A#64) ∧
  decode 0x020000000000000000#72 = .ok .pop ∧
  decode 0x060000000000000000#72 = .ok .divInt ∧
  decode 0x0A0000000000000000#72 = .ok .divFloat ∧
  decode 0x0B0000000000000000#72 = .error (.unassignedOpcode 0x0B#8) ∧
  decode 0x020000000000000001#72 = .error (.nonzeroImmediate 0x02#8 1#64)

/-- R44: a slot is 9 bytes, `OP` first and then `IMM` little-endian; a cell is 8 bytes little-endian; and the bytes give the
slot back, whatever follows them. -/
def Obligations.SlotBytesRoundTrip : Prop :=
  (∀ w, ∃ b0 b1 b2 b3 b4 b5 b6 b7 : Byte,
    slotBytes w = [slotOp w, b0, b1, b2, b3, b4, b5, b6, b7] ∧ cellBytes (slotImm w) = [b0, b1, b2, b3, b4, b5, b6, b7] ∧
    b0 = (slotImm w).extractLsb' 0 8 ∧ b7 = (slotImm w).extractLsb' 56 8) ∧
  (∀ v : Cell, (cellBytes v).length = 8 ∧ littleEndian (cellBytes v) = v.toNat) ∧
  (∀ w rest, slotOfBytes (slotBytes w ++ rest) = some (w, rest))

/-! ### Reset, invariant, termination -/

/-- R32: the power-on column, of the state after reset and of a power-on reset at any time (R190), and the LOAD column. -/
def Obligations.ResetAndLoadValues : Prop :=
  (State.reset.pc = 0#64 ∧ codeLen State.reset = 0 ∧ depth State.reset = 0 ∧ State.reset.runState = .empty ∧
    State.reset.err = none ∧ statusWord State.reset = 0#64) ∧
  (∀ s : State, (powerOn s).pc = 0#64 ∧ codeLen (powerOn s) = 0 ∧ depth (powerOn s) = 0 ∧
    (powerOn s).runState = .empty ∧ (powerOn s).err = none ∧ statusWord (powerOn s) = 0#64) ∧
  ∀ s slots rest t, s.runState ≠ .running → s.pending = .load slots :: rest → slots.length ≤ s.params.codeMax →
    step s = .next t →
    t.pc = 0#64 ∧ codeLen t = slots.length ∧ t.code = slots ∧ depth t = 0 ∧ t.runState = .ready ∧ t.err = none ∧
      statusWord t = 1#64

/-- The invariant holds at reset and after a power-on reset. It covers R22, R23, R25 and R28, and the model's own link of
depth and pc, which no rule states. The power-on `CODE_MAX` and `STACK_CAP` are free values (log 1). -/
def Obligations.InvariantHoldsAtReset : Prop := State.reset.Inv ∧ ∀ s : State, s.Inv → (powerOn s).Inv

/-- Every step keeps the invariant, and so does a command issued between steps. -/
def Obligations.StepKeepsInvariant : Prop :=
  (∀ s t : State, s.Inv → step s = .next t → t.Inv) ∧ (∀ (s : State) (c : Command), s.Inv → (issue c s).Inv)

/-- From a state that meets the invariant every step answers a next state: neither the model's one fault nor a refusal is
ever met. -/
def Obligations.StepFromInvariantAnswers : Prop := ∀ s : State, s.Inv → ∃ t, step s = .next t

/-- A RUNNING core that meets the invariant is COMPLETED or HALTED after at most `N - pc + 1` steps. -/
def Obligations.EveryRunEnds : Prop :=
  ∀ s : State, s.Inv → s.runState = .running →
    ∃ k t, k ≤ codeLen s - s.pc.toNat + 1 ∧ Host.Core.run core k s = .next t ∧
      (t.runState = .completed ∨ t.runState = .halted)

/-- With no command held, a run that still runs after `k` steps has committed `k` instructions: pc has risen by `k` and
the code, the parameters and the replies are what they were. -/
def Obligations.RunCountsCommits : Prop :=
  ∀ (k : Nat) (s t : State), s.runState = .running → s.pending = [] → Host.Core.run core k s = .next t →
    t.runState = .running →
    t.pc = s.pc + BitVec.ofNat 64 k ∧ t.code = s.code ∧ t.params = s.params ∧ t.replies = s.replies ∧ t.pending = []

/-! ### The loop -/

/-- R81: a RUNNING core completes at `pc = N`; otherwise it fetches the slot at pc, halts with `IllegalInstruction` when the
slot decodes to nothing, and executes the instruction it decodes to. That the waiting reads of STATUS are answered before it,
and that a waiting read of a reserved register stays held, is the model's reading (log 7, DEDUCED). -/
def Obligations.StepRunsDecodedInstruction : Prop :=
  (∀ s : State, s.runState = .running → s.pc.toNat = codeLen s → step s = .next (complete (statusAnswered s))) ∧
  (∀ (s : State) w e, s.runState = .running → s.pc.toNat < codeLen s → slotAt s s.pc.toNat = some w →
    decode w = .error e → step s = .next (haltedWith .illegalInstruction (statusAnswered s))) ∧
  (∀ (s : State) w i, s.runState = .running → s.pc.toNat < codeLen s → slotAt s s.pc.toNat = some w →
    decode w = .ok i → step s = exec i (statusAnswered s))

/-- R82, R152: at `pc = N` the run completes; `ERR`, pc, the stack and the code are unchanged, and START is answered `OK`.
That the waiting reads of STATUS are answered before START is the model's reading (log 7, DEDUCED). -/
def Obligations.RunCompletesAtEnd : Prop :=
  ∀ s : State, s.runState = .running → s.pc.toNat = codeLen s →
    ∃ t, step s = .next t ∧ t.runState = .completed ∧ t.err = s.err ∧ t.pc = s.pc ∧ t.stack = s.stack ∧ t.code = s.code ∧
      t.replies = (statusAnswered s).replies ++ [{ command := .start, response := .ok, value := none }]

/-- R83: an instruction that raises nothing commits and pc advances by one; no instruction writes pc in any other way. -/
def Obligations.CommitAdvancesPc : Prop :=
  ∀ (i : Instr) (s : State),
    (∃ t, exec i s = .next t ∧ t.err = s.err ∧ t.runState = s.runState ∧ t.replies = s.replies ∧ t.pc = s.pc + 1#64) ∨
    (∃ e, exec i s = .next (haltedWith e s))

/-- R84, C5: the step that halts a run commits nothing: no cell, no depth, no pc and no code has changed. -/
def Obligations.ErrorsArePrecise : Prop :=
  ∀ s t : State, s.runState = .running → step s = .next t → t.runState = .halted →
    t.pc = s.pc ∧ t.stack = s.stack ∧ depth t = depth s ∧ t.code = s.code ∧ t.params = s.params ∧ t.err.isSome = true

/-- R41, R55: the code changes by a LOAD alone, never while the core runs, and no step changes the parameters. -/
def Obligations.OnlyLoadWritesCode : Prop :=
  ∀ s t : State, step s = .next t →
    t.params = s.params ∧
    (s.runState = .running → t.code = s.code) ∧
    (t.code ≠ s.code → ∃ slots rest, s.pending = .load slots :: rest ∧ t.code = slots ∧
      slots.length ≤ s.params.codeMax)

/-- R67, R68: fetching a slot with an unassigned opcode, or with a stray immediate, halts with `IllegalInstruction` at that
slot; a LOAD takes it unchecked; and a slot that is not fetched has no effect on the step. That the halting step answers the
waiting reads of STATUS before START, and holds the others, is the model's reading (log 7, DEDUCED). -/
def Obligations.IllegalSlotHalts : Prop :=
  (∀ (s : State) w, s.runState = .running → s.pc.toNat < codeLen s → slotAt s s.pc.toNat = some w →
    (0x0B ≤ (slotOp w).toNat ∨ (0x02 ≤ (slotOp w).toNat ∧ (slotOp w).toNat ≤ 0x0A ∧ slotImm w ≠ 0#64)) →
    step s = .next (haltedWith .illegalInstruction (statusAnswered s)) ∧ errKindCode .illegalInstruction = 4#8) ∧
  (∀ (s : State) slots rest, s.runState ≠ .running → s.pending = .load slots :: rest →
    slots.length ≤ s.params.codeMax → ∃ t, step s = .next t ∧ t.code = slots ∧ t.runState = .ready) ∧
  (∀ (s t : State) j w, s.runState = .running → j ≠ s.pc.toNat → step s = .next t →
    step { s with code := s.code.set j w } = .next { t with code := t.code.set j w })

/-! ### Stack instructions -/

/-- R85, R100: push-integer: every immediate is encoded whole; below the capacity the pattern becomes the new top, and at
the capacity `OutOfMemory` is raised and nothing changes. -/
def Obligations.PushIntegerRule : Prop :=
  (∀ v, decode (mkSlot 0x00#8 v) = .ok (.pushInteger v)) ∧
  (∀ (s : State) v, capacity s.params.stackCap ≠ some (depth s) →
    exec (.pushInteger v) s = .next (committed (v :: s.stack) s)) ∧
  (∀ (s : State) v, capacity s.params.stackCap = some (depth s) →
    exec (.pushInteger v) s = .next (haltedWith .outOfMemory s))

/-- R101: push-float pushes its pattern unchanged, the very cell push-integer writes for the same pattern. -/
def Obligations.PushFloatRule : Prop :=
  (∀ x, decode (mkSlot 0x01#8 x) = .ok (.pushFloat x)) ∧
  (∀ (s : State) x, capacity s.params.stackCap ≠ some (depth s) →
    exec (.pushFloat x) s = .next (committed (x :: s.stack) s)) ∧
  (∀ (s : State) x, capacity s.params.stackCap = some (depth s) →
    exec (.pushFloat x) s = .next (haltedWith .outOfMemory s)) ∧
  (∀ (s : State) x, exec (.pushFloat x) s = exec (.pushInteger x) s)

/-- R102: pop removes the top cell, does nothing but advance pc on an empty stack, and raises nothing. -/
def Obligations.PopRule : Prop :=
  EncodedAs .pop 0x02#8 ∧
  (∀ (s : State) a rest, s.stack = a :: rest → exec .pop s = .next (committed rest s)) ∧
  (∀ s : State, s.stack = [] → exec .pop s = .next (committed [] s))

/-! ### Integer unit -/

/-- R111: `IntResult`: a result that fits is its pattern; under `WRAP` one that does not is taken modulo 2^64; under
`FAULT` it raises `IntOverflow`. Addition, subtraction and multiplication can overflow, division at -2^63 / -1 alone; and the
core at reset has the default the rule names, `WRAP` (log 2 is about parts built otherwise). -/
def Obligations.IntResultRule : Prop :=
  (∀ o n, Fits n → ∃ r, intResult o n = .ok r ∧ r.toInt = n) ∧
  (∀ n, ¬ Fits n → ∃ r, intResult .wrap n = .ok r ∧ SameMod64 r.toInt n) ∧
  (∀ n, ¬ Fits n → intResult .fault n = .error .intOverflow) ∧ errKindCode .intOverflow = 5#8 ∧
  (∃ a b : Cell, ¬ Fits (b.toInt + a.toInt)) ∧ (∃ a b : Cell, ¬ Fits (b.toInt - a.toInt)) ∧
  (∃ a b : Cell, ¬ Fits (b.toInt * a.toInt)) ∧
  (∀ a b : Cell, a.toInt ≠ 0 → (¬ Fits (b.toInt.tdiv a.toInt) ↔ b.toInt = -(2 ^ 63) ∧ a.toInt = -1)) ∧
  State.reset.params.intOverflow = .wrap

/-- R112: add-int. -/
def Obligations.AddIntRule : Prop := IntegerRule .addInt 0x03#8 fun b a => b + a

/-- R113: sub-int: the earlier operand minus the later one. -/
def Obligations.SubIntRule : Prop := IntegerRule .subInt 0x04#8 fun b a => b - a

/-- R114: mul-int. -/
def Obligations.MulIntRule : Prop := IntegerRule .mulInt 0x05#8 fun b a => b * a

/-- R115: div-int: `OutOfBounds` first, then `DivByZero` on a zero divisor, and else the quotient truncated toward zero,
which overflows for -2^63 / -1 alone. -/
def Obligations.DivIntRule : Prop :=
  EncodedAs .divInt 0x06#8 ∧
  (∀ s : State, depth s < 2 → exec .divInt s = .next (haltedWith .outOfBounds s)) ∧
  ∀ (s : State) (a b : Cell) (rest : List Cell), s.stack = a :: b :: rest →
    capHolds s.params.stackCap (depth s) = true →
    (a.toInt = 0 → exec .divInt s = .next (haltedWith .divByZero s)) ∧
    (a.toInt ≠ 0 → ¬ (b.toInt = -(2 ^ 63) ∧ a.toInt = -1) →
      ∃ r : Cell, exec .divInt s = .next (committed (r :: rest) s) ∧ r.toInt = b.toInt.tdiv a.toInt) ∧
    (b.toInt = -(2 ^ 63) → a.toInt = -1 → s.params.intOverflow = .wrap →
      exec .divInt s = .next (committed (0x8000000000000000#64 :: rest) s)) ∧
    (b.toInt = -(2 ^ 63) → a.toInt = -1 → s.params.intOverflow = .fault →
      exec .divInt s = .next (haltedWith .intOverflow s))

/-- R10: the division primitive: the magnitude of the quotient is the floor of the magnitudes' quotient, and it is negative
exactly when the signs differ and the dividend's magnitude is not the smaller. -/
def Obligations.TruncatedDivisionRule : Prop :=
  ∀ x y : Int, y ≠ 0 →
    (tdiv x y).natAbs = x.natAbs / y.natAbs ∧
    (tdiv x y < 0 ↔ ((x < 0 ∧ 0 < y) ∨ (0 < x ∧ y < 0)) ∧ y.natAbs ≤ x.natAbs) ∧ tdiv x y = x.tdiv y

/-! ### Floating-point unit -/

/-- R131, R133, R134 (what they take from IEEE 754 is general knowledge: log 10): the rounding of the unit: for every exact magnitude `num / den` the result is the nearest binary64
number, ties to even, subnormals in full, and infinity from the midpoint above the largest finite number on. -/
def Obligations.RoundingIsNearestEven : Prop :=
  ∀ (neg : Bool) (num den : Nat), 0 < den → RoundedTo neg num den (roundUnits neg num den)

/-- R135: add-float. What IEEE 754 gives for infinities and zeros is general knowledge (R132, R134; log 10), and a NaN's bits
are `NAN_RESULT` (log 3). -/
def Obligations.AddFloatRule : Prop :=
  EncodedAs .addFloat 0x07#8 ∧
  (∀ s : State, depth s < 2 → exec .addFloat s = .next (haltedWith .outOfBounds s)) ∧
  ∀ (s : State) (a b : Cell) (rest : List Cell), s.stack = a :: b :: rest →
    capHolds s.params.stackCap (depth s) = true →
    ∃ r, exec .addFloat s = .next (committed (r :: rest) s) ∧
      (f64 a = .nan ∨ f64 b = .nan → r = nanResult .add a b) ∧
      (∀ m n, f64 b = .inf m → f64 a = .inf n → r = if m = n then infBits m else nanResult .add a b) ∧
      (∀ m n sig exp, f64 b = .inf m → f64 a = .finite n sig exp → r = infBits m) ∧
      (∀ m n sig exp, f64 b = .finite m sig exp → f64 a = .inf n → r = infBits n) ∧
      (∀ m sx ex n sy ey, f64 b = .finite m sx ex → f64 a = .finite n sy ey →
        let sum : Int := signedUnits m sx ex + signedUnits n sy ey
        (sum = 0 → r = if m = true ∧ n = true then zeroBits true else zeroBits false) ∧
        (sum ≠ 0 → RoundedTo (decide (sum < 0)) sum.natAbs 1 r))

/-- R136: sub-float: the earlier operand minus the later one (logs 3 and 10). -/
def Obligations.SubFloatRule : Prop :=
  EncodedAs .subFloat 0x08#8 ∧
  (∀ s : State, depth s < 2 → exec .subFloat s = .next (haltedWith .outOfBounds s)) ∧
  ∀ (s : State) (a b : Cell) (rest : List Cell), s.stack = a :: b :: rest →
    capHolds s.params.stackCap (depth s) = true →
    ∃ r, exec .subFloat s = .next (committed (r :: rest) s) ∧
      (f64 a = .nan ∨ f64 b = .nan → r = nanResult .sub a b) ∧
      (∀ m n, f64 b = .inf m → f64 a = .inf n → r = if m = n then nanResult .sub a b else infBits m) ∧
      (∀ m n sig exp, f64 b = .inf m → f64 a = .finite n sig exp → r = infBits m) ∧
      (∀ m n sig exp, f64 b = .finite m sig exp → f64 a = .inf n → r = infBits (!n)) ∧
      (∀ m sx ex n sy ey, f64 b = .finite m sx ex → f64 a = .finite n sy ey →
        let difference : Int := signedUnits m sx ex - signedUnits n sy ey
        (difference = 0 → r = if m = true ∧ n = false then zeroBits true else zeroBits false) ∧
        (difference ≠ 0 → RoundedTo (decide (difference < 0)) difference.natAbs 1 r))

/-- R137: mul-float (logs 3 and 10). The product of two magnitudes in units of 2^-1074 is in units of 2^-2148. -/
def Obligations.MulFloatRule : Prop :=
  EncodedAs .mulFloat 0x09#8 ∧
  (∀ s : State, depth s < 2 → exec .mulFloat s = .next (haltedWith .outOfBounds s)) ∧
  ∀ (s : State) (a b : Cell) (rest : List Cell), s.stack = a :: b :: rest →
    capHolds s.params.stackCap (depth s) = true →
    ∃ r, exec .mulFloat s = .next (committed (r :: rest) s) ∧
      (f64 a = .nan ∨ f64 b = .nan → r = nanResult .mul a b) ∧
      (∀ m n, f64 b = .inf m → f64 a = .inf n → r = infBits (m ^^ n)) ∧
      (∀ m n sig exp, f64 b = .inf m → f64 a = .finite n sig exp →
        r = if sig = 0 then nanResult .mul a b else infBits (m ^^ n)) ∧
      (∀ m n sig exp, f64 b = .finite m sig exp → f64 a = .inf n →
        r = if sig = 0 then nanResult .mul a b else infBits (m ^^ n)) ∧
      (∀ m sx ex n sy ey, f64 b = .finite m sx ex → f64 a = .finite n sy ey →
        RoundedTo (m ^^ n) ((sx * 2 ^ ex) * (sy * 2 ^ ey)) unitsPerOne r)

/-- R138: div-float (logs 3 and 10): `OutOfBounds` first, then `DivByZero` when the divisor compares equal to 0.0, and else the quotient. -/
def Obligations.DivFloatRule : Prop :=
  EncodedAs .divFloat 0x0A#8 ∧
  (∀ s : State, depth s < 2 → exec .divFloat s = .next (haltedWith .outOfBounds s)) ∧
  ∀ (s : State) (a b : Cell) (rest : List Cell), s.stack = a :: b :: rest →
    capHolds s.params.stackCap (depth s) = true →
    (a = 0#64 ∨ a = 0x8000000000000000#64 → exec .divFloat s = .next (haltedWith .divByZero s)) ∧
    (a ≠ 0#64 → a ≠ 0x8000000000000000#64 →
      ∃ r, exec .divFloat s = .next (committed (r :: rest) s) ∧
        (f64 a = .nan ∨ f64 b = .nan → r = nanResult .div a b) ∧
        (∀ m n, f64 b = .inf m → f64 a = .inf n → r = nanResult .div a b) ∧
        (∀ m n sig exp, f64 b = .inf m → f64 a = .finite n sig exp → r = infBits (m ^^ n)) ∧
        (∀ m n sig exp, f64 b = .finite m sig exp → f64 a = .inf n → r = zeroBits (m ^^ n)) ∧
        (∀ m sx ex n sy ey, f64 b = .finite m sx ex → f64 a = .finite n sy ey →
          RoundedTo (m ^^ n) (sx * 2 ^ ex * unitsPerOne) (sy * 2 ^ ey) r))

/-- R132, and the model's free value of log 3: `NAN_RESULT` is a NaN for every opcode and operands: bits 62:52 all ones, bits 51:0 not all zero. -/
def Obligations.NanResultIsNaN : Prop :=
  ∀ (op : Config.FloatOp) (a b : Cell), isNaN (nanResult op a b) = true ∧ f64 (nanResult op a b) = .nan

/-- R139: the zero test of div-float is true for exactly two patterns; it is false for every NaN, subnormal and infinity, and
such a divisor divides with no error. -/
def Obligations.ZeroTestHasTwoPatterns : Prop :=
  (∀ a : Cell, equalsZero a = true ↔ a = 0x0000000000000000#64 ∨ a = 0x8000000000000000#64) ∧
  (∀ a : Cell, f64 a = .nan ∨ (∃ neg, f64 a = .inf neg) ∨ (∃ neg sig, f64 a = .finite neg sig 0 ∧ 0 < sig) →
    equalsZero a = false) ∧
  (∀ (s : State) (a b : Cell) (rest : List Cell), s.stack = a :: b :: rest →
    capHolds s.params.stackCap (depth s) = true → equalsZero a = false →
    ∃ r, exec .divFloat s = .next (committed (r :: rest) s))

/-- R9: the binary64 reading of a pattern loses nothing: two patterns that are not NaN and read alike are one pattern. -/
def Obligations.FloatReadingIsExact : Prop :=
  ∀ v w : Cell, f64 v = f64 w → f64 v ≠ .nan → v = w

/-- C6, D24: add-float and mul-float give the same cell in either operand order, unless the result is a NaN. -/
def Obligations.FloatAddMulCommute : Prop :=
  ∀ (s : State) (a b : Cell) (rest : List Cell), capHolds s.params.stackCap (rest.length + 2) = true →
    (fadd (f64 b) (f64 a) ≠ none →
      exec .addFloat { s with stack := a :: b :: rest } = exec .addFloat { s with stack := b :: a :: rest }) ∧
    (fmul (f64 b) (f64 a) ≠ none →
      exec .mulFloat { s with stack := a :: b :: rest } = exec .mulFloat { s with stack := b :: a :: rest })

/-! ### Errors -/

/-- R86: `PopTwo` with fewer than two cells: each of the eight ALU instructions halts with `OutOfBounds`, and no cell goes. -/
def Obligations.AluNeedsTwoCells : Prop :=
  (∀ s : State, depth s < 2 → popTwo s = .error .outOfBounds) ∧
  (∀ (s : State) a b rest, s.stack = a :: b :: rest →
    popTwo s = .ok (a, b, { s with stack := rest }) ∧ cellAt s (depth s - 1) = some a ∧ cellAt s (depth s - 2) = some b) ∧
  (∀ (s : State) i, IsAlu i → depth s < 2 → exec i s = .next (haltedWith .outOfBounds s))

/-- An instruction of a core within its stack capacity raises an error exactly when the table of R171 says so, with the
priorities of R175. -/
def Obligations.EachErrorHasItsCause : Prop :=
  ∀ (i : Instr) (s : State) (e : ErrKind), capHolds s.params.stackCap (depth s) = true →
    (exec i s = .next (haltedWith e s) ↔ ErrorCause i s e)

/-- R172: an error raised inside a step writes `ERR` and `RUN_STATE`, gives START's response, and writes nothing else; and in
HALTED no further instruction is fetched: with no command waiting, a step changes nothing. That the waiting reads of STATUS are
answered before START is the model's reading (log 7, DEDUCED), and so is the step of an idle core (log 8, DEDUCED from R184). -/
def Obligations.HaltWritesOnlyErrAndRunState : Prop :=
  (∀ s t : State, s.runState = .running → step s = .next t → t.runState = .halted →
    ∃ e, t = haltedWith e (statusAnswered s) ∧ errCode t.err = errKindCode e ∧
      responseCode (.error e) = errKindCode e) ∧
  (∀ s : State, s.runState = .halted → s.pending = [] → step s = .next s)

/-- R174: HALTED is left by an accepted LOAD alone, which gives a clean state; START answers `NOT_READY` there and changes
nothing else; and the observation treats HALTED as a fault. -/
def Obligations.HaltedIsTerminal : Prop :=
  (∀ s t : State, s.runState = .halted → step s = .next t → t.runState ≠ .halted →
    ∃ slots rest, s.pending = .load slots :: rest ∧ slots.length ≤ s.params.codeMax ∧
      t.code = slots ∧ t.pc = 0#64 ∧ t.stack = [] ∧ t.err = none ∧ t.runState = .ready) ∧
  (∀ s rest, s.runState = .halted → s.pending = .start :: rest →
    step s = .next (answered .start .notReady none rest s)) ∧
  (∀ s : State, s.runState = .halted → observe s = .fault s.err)

/-! ### Frames -/

/-- The frame of push-integer and push-float: every cell but the one pushed, `S[depth]`, reads as before, and every other
register but pc is unchanged, but for what an error writes. -/
def Obligations.PushFrame : Prop :=
  ∀ (i : Instr) (v : Cell) (s t : State), i = .pushInteger v ∨ i = .pushFloat v → exec i s = .next t →
    t.code = s.code ∧ t.params = s.params ∧ t.pending = s.pending ∧
    (∀ j, j ≠ depth s → cellAt t j = cellAt s j) ∧
    (t.err = s.err ∧ t.runState = s.runState ∧ t.replies = s.replies ∧ cellAt t (depth s) = some v ∧
        depth t = depth s + 1 ∨
      t = haltedWith .outOfMemory s)

/-- The frame of pop: it stores nothing; every cell but the top reads as before, the top is no longer live, and every other
register but pc is unchanged. -/
def Obligations.PopFrame : Prop :=
  ∀ s t : State, exec .pop s = .next t →
    t.code = s.code ∧ t.params = s.params ∧ t.pending = s.pending ∧ t.err = s.err ∧ t.runState = s.runState ∧
    t.replies = s.replies ∧ depth t = depth s - 1 ∧ (∀ j, j ≠ depth s - 1 → cellAt t j = cellAt s j) ∧
    cellAt t (depth s - 1) = none

/-- The frame of the eight ALU instructions: the one cell stored is `S[depth-2]`; every cell under it reads as before,
`S[depth-1]` is no longer live, and every other register but pc is unchanged, but for what an error writes. -/
def Obligations.AluFrame : Prop :=
  ∀ (i : Instr) (s t : State), IsAlu i → exec i s = .next t →
    t.code = s.code ∧ t.params = s.params ∧ t.pending = s.pending ∧
    (t.err = s.err ∧ t.runState = s.runState ∧ t.replies = s.replies ∧ 2 ≤ depth s ∧ depth t = depth s - 1 ∧
        (∀ j, j ≠ depth s - 2 → j ≠ depth s - 1 → cellAt t j = cellAt s j) ∧ cellAt t (depth s - 1) = none ∨
      ((∃ e, t = haltedWith e s) ∧ ∀ j, cellAt t j = cellAt s j))

/-- R26, R140: no instruction can tell how a cell was produced: what it does is a function of the cells' bits and of the
parameters alone. So it does the same after an instruction that produces integer cells, push-integer or one of the integer
unit, as after one that produces float cells, push-float or one of the float unit, whenever both leave the same bits; and after
the two pushes of one pattern. -/
def Obligations.CellsAreUntyped : Prop :=
  (∀ (i : Instr) (t u : State), t.stack = u.stack → t.params = u.params → SameOutcome i t u) ∧
  (∀ (p q i : Instr) (s r t u : State), ProducesInteger p → ProducesFloat q → s.params = r.params →
    exec p s = .next t → exec q r = .next u → t.stack = u.stack → SameOutcome i t u) ∧
  (∀ (s t u : State) (v : Cell) (i : Instr), exec (.pushInteger v) s = .next t → exec (.pushFloat v) s = .next u →
    exec i t = exec i u ∧ cellAt t (depth s) = cellAt u (depth s))

/-! ### Host interface -/

/-- R151: LOAD. -/
def Obligations.LoadRule : Prop :=
  (∀ (s : State) slots rest, s.runState ≠ .running → s.pending = .load slots :: rest → slots.length ≤ s.params.codeMax →
    step s = .next { pc := 0#64, code := slots, stack := [], runState := .ready, err := none, pending := rest
                     replies := s.replies ++ [{ command := .load slots, response := .ok, value := none }]
                     params := s.params }) ∧
  (∀ (s : State) slots rest, s.runState ≠ .running → s.pending = .load slots :: rest → s.params.codeMax < slots.length →
    step s = .next (answered (.load slots) (.error .outOfMemory) none rest s) ∧ errKindCode .outOfMemory = 3#8) ∧
  (∀ (s t : State) slots, s.runState = .running → .load slots ∈ s.pending → step s = .next t → .load slots ∈ t.pending)

/-- R152: START begins the run in READY, answers `NOT_READY` in EMPTY, COMPLETED and HALTED, is held in RUNNING, and is
answered when the run ends: `OK` if COMPLETED, the `ERR` code if HALTED. That the waiting reads of STATUS are answered before
START is the model's reading (log 7, DEDUCED). -/
def Obligations.StartRule : Prop :=
  (∀ (s : State) rest, s.runState = .ready → s.pending = .start :: rest →
    step s = .next { s with runState := .running, pending := rest }) ∧
  (∀ (s : State) rest, s.runState = .empty ∨ s.runState = .completed ∨ s.runState = .halted →
    s.pending = .start :: rest → step s = .next (answered .start .notReady none rest s)) ∧
  (∀ s t : State, s.runState = .running → .start ∈ s.pending → step s = .next t → .start ∈ t.pending) ∧
  (∀ s t : State, s.runState = .running → step s = .next t → t.runState ≠ .running →
    ∃ r, t.replies = (statusAnswered s).replies ++ [{ command := .start, response := r, value := none }] ∧
      ((t.runState = .completed ∧ r = .ok) ∨ (t.runState = .halted ∧ ∃ e, t.err = some e ∧ r = .error e)))

/-- R155: the position of a signed index: the index itself if it is not negative, `depth + index` if it is, and
`OutOfBounds` outside the live cells. -/
def Obligations.ResolveRule : Prop :=
  (∀ (d p : Nat) (index : BitVec 64), resolve d index = some p ↔
    p < d ∧ ((0 ≤ index.toInt ∧ (p : Int) = index.toInt) ∨ (index.toInt < 0 ∧ (p : Int) = d + index.toInt))) ∧
  (∀ d, 0 < d → resolve d 0#64 = some 0 ∧ resolve d (-1#64) = some (d - 1)) ∧
  (∀ d : Nat, 0 < d → d < 2 ^ 63 → resolve d (BitVec.ofInt 64 (-d)) = some 0 ∧ resolve d (BitVec.ofInt 64 d) = none ∧
    resolve d (BitVec.ofInt 64 (-(d + 1))) = none) ∧
  (∀ index, resolve 0 index = none)

/-- R153, R154, R176: outside a run READ_INT and READ_FLOAT answer the live cell at the resolved position, the same 64 bits
both, or `OutOfBounds`, and change nothing else; during a run they are held. -/
def Obligations.AccessorRule : Prop :=
  ∀ (s : State) (index : BitVec 64) (c : Command), c = .readInt index ∨ c = .readFloat index →
    (∀ rest p, s.runState ≠ .running → s.pending = c :: rest → resolve (depth s) index = some p →
      ∃ v, cellAt s p = some v ∧ step s = .next (answered c .ok (some v) rest s)) ∧
    (∀ rest, s.runState ≠ .running → s.pending = c :: rest → resolve (depth s) index = none →
      step s = .next (answered c (.error .outOfBounds) none rest s) ∧ errKindCode .outOfBounds = 1#8) ∧
    (∀ t, s.runState = .running → c ∈ s.pending → step s = .next t → c ∈ t.pending)

/-- R158: with no LOAD or START in between, two reads of one index get the same response and the same value. -/
def Obligations.ReadsRepeat : Prop :=
  ∀ (s u : State) (index : BitVec 64) (c : Command) (between rest : List Command), s.runState ≠ .running →
    c = .readInt index ∨ c = .readFloat index →
    (∀ d ∈ between, d ≠ .start ∧ ∀ slots, d ≠ .load slots) →
    s.pending = c :: (between ++ c :: rest) → Host.Core.run core (between.length + 2) s = .next u →
    ∃ r v replies, u.replies = s.replies ++ [{ command := c, response := r, value := v }] ++ replies ++
        [{ command := c, response := r, value := v }] ∧ u.stack = s.stack ∧ u.pending = rest

/-- R30, R156: READ_REG: the four registers, 0 for any other number; outside a run it is answered in its turn and changes
nothing; during a run READ_REG 0 is answered with RUNNING and no error, and the others are held. -/
def Obligations.ReadRegRule : Prop :=
  (∀ s : State, registerValue s 0#64 = statusWord s ∧ registerValue s 1#64 = s.pc ∧
    registerValue s 2#64 = BitVec.ofNat 64 (depth s) ∧ registerValue s 3#64 = BitVec.ofNat 64 (codeLen s)) ∧
  (∀ (s : State) r, 4 ≤ r.toNat → registerValue s r = 0#64) ∧
  (∀ (s : State) r rest, s.runState ≠ .running → s.pending = .readReg r :: rest →
    step s = .next (answered (.readReg r) .ok (some (registerValue s r)) rest s)) ∧
  (∀ s t : State, s.Inv → s.runState = .running → .readReg 0#64 ∈ s.pending → step s = .next t →
    .readReg 0#64 ∉ t.pending ∧ { command := .readReg 0#64, response := .ok, value := some 2#64 } ∈ t.replies) ∧
  (∀ (s t : State) r, s.runState = .running → 1 ≤ r.toNat → r.toNat ≤ 3 → .readReg r ∈ s.pending → step s = .next t →
    .readReg r ∈ t.pending)

/-- R29: the fields of `STATUS`: bits 2:0 hold the value R27 gives the run state, bits 15:8 the code R170 gives the error kind,
and the reserved bits read 0. -/
def Obligations.StatusLayout : Prop :=
  ∀ s : State,
    (s.runState = .empty → (statusWord s).extractLsb' 0 3 = 0#3) ∧
    (s.runState = .ready → (statusWord s).extractLsb' 0 3 = 1#3) ∧
    (s.runState = .running → (statusWord s).extractLsb' 0 3 = 2#3) ∧
    (s.runState = .completed → (statusWord s).extractLsb' 0 3 = 3#3) ∧
    (s.runState = .halted → (statusWord s).extractLsb' 0 3 = 4#3) ∧
    (statusWord s).extractLsb' 3 5 = 0#5 ∧
    (s.err = none → (statusWord s).extractLsb' 8 8 = 0#8) ∧
    (s.err = some .outOfBounds → (statusWord s).extractLsb' 8 8 = 1#8) ∧
    (s.err = some .divByZero → (statusWord s).extractLsb' 8 8 = 2#8) ∧
    (s.err = some .outOfMemory → (statusWord s).extractLsb' 8 8 = 3#8) ∧
    (s.err = some .illegalInstruction → (statusWord s).extractLsb' 8 8 = 4#8) ∧
    (s.err = some .intOverflow → (statusWord s).extractLsb' 8 8 = 5#8) ∧
    (statusWord s).extractLsb' 16 48 = 0#48

/-- R157, D20: during a run every command but READ_REG 0 stays held, in the order issued; outside a run the oldest is
performed, and the others wait. (That a reserved register number is held too, and that an idle core's step changes nothing, is
the model's reading: logs 7 and 8.) -/
def Obligations.CommandsHeldDuringRun : Prop :=
  (∀ s t : State, s.runState = .running → step s = .next t → t.pending = s.pending.filter fun c => decide (c ≠ .readReg 0#64)) ∧
  (∀ (s : State) c rest, s.runState ≠ .running → s.pending = c :: rest →
    step s = .next (perform c { s with pending := rest }) ∧ (perform c { s with pending := rest }).pending = rest) ∧
  (∀ s : State, s.runState ≠ .running → s.pending = [] → step s = .next s)

/-- R150: each command that is performed returns one response, to that command, but for a START that begins a run, whose
response comes at the run's end; and the response codes are `OK` 0, the error codes, and `NOT_READY` 0xFF. -/
def Obligations.OneResponsePerCommand : Prop :=
  (∀ (s : State) c rest, s.runState ≠ .running → s.pending = c :: rest → ¬ (c = .start ∧ s.runState = .ready) →
    ∃ t r v, step s = .next t ∧ t.replies = s.replies ++ [{ command := c, response := r, value := v }]) ∧
  responseCode .ok = 0#8 ∧ responseCode .notReady = 0xFF#8 ∧
  responseCode (.error .outOfBounds) = 1#8 ∧ responseCode (.error .divByZero) = 2#8 ∧
  responseCode (.error .outOfMemory) = 3#8 ∧ responseCode (.error .illegalInstruction) = 4#8 ∧
  responseCode (.error .intOverflow) = 5#8

/-- R192: the boot flow: in any state outside a run, a LOAD of an accepted program and then a START leave the core RUNNING
that program from index 0 with an empty stack and no error. -/
def Obligations.LoadThenStartRuns : Prop :=
  ∀ (s : State) slots rest, s.runState ≠ .running → s.pending = .load slots :: .start :: rest →
    slots.length ≤ s.params.codeMax →
    ∃ t, Host.Core.run core 2 s = .next t ∧ t.runState = .running ∧ t.code = slots ∧ t.pc = 0#64 ∧ t.stack = [] ∧
      t.err = none ∧ t.pending = rest

/-- R195, R140: an ALU instruction that the typing check passes finds two cells, and the ghost types keep step with the stack;
and a run with no command held, the rest of whose program keeps the typing discipline on the types of its live cells, is never
halted with `OutOfBounds`. The check itself, `typeStep` and `keepsTypes`, is the model's reading of the duty of R195 (log 18,
DEDUCED): the core checks none of it. -/
def Obligations.TypedInstructionFindsOperands : Prop :=
  (∀ (i : Instr) (s t : State) (ts us : List CellType), ts.length = depth s → typeStep i ts = some us →
    exec i s = .next t → t ≠ haltedWith .outOfBounds s ∧ ((∀ e, t ≠ haltedWith e s) → us.length = depth t)) ∧
  (∀ (s t : State) (program : List Instr) (ts : List CellType) (k : Nat), s.Inv → s.runState = .running →
    s.pending = [] → s.code.drop s.pc.toNat = program.map encode → ts.length = depth s →
    keepsTypes program ts = true → Host.Core.run core k s = .next t → t.err ≠ some .outOfBounds)
end

