-- ==== Sys2Proof/Laws/Decode.lean ====
section
/-! SUPPORT. Putting a slot together and taking it apart (R61): what later proofs about decoding cite. -/

namespace Sys2Proof

theorem mkSlot_toNat (op : Byte) (imm : Cell) : (mkSlot op imm).toNat = op.toNat * 2 ^ 64 + imm.toNat := by
  rw [mkSlot, BitVec.toNat_append, ← Nat.shiftLeft_add_eq_or_of_lt imm.isLt, Nat.shiftLeft_eq]

theorem slotOp_toNat (w : Slot) : (slotOp w).toNat = w.toNat / 2 ^ 64 := by
  have := w.isLt
  simp only [slotOp, BitVec.extractLsb'_toNat, Nat.shiftRight_eq_div_pow]
  exact Nat.mod_eq_of_lt (by omega)

theorem slotImm_toNat (w : Slot) : (slotImm w).toNat = w.toNat % 2 ^ 64 := by
  simp [slotImm, BitVec.extractLsb'_toNat]

theorem slotOp_mkSlot (op : Byte) (imm : Cell) : slotOp (mkSlot op imm) = op := by
  have := imm.isLt
  exact BitVec.eq_of_toNat_eq (by rw [slotOp_toNat, mkSlot_toNat]; omega)

theorem slotImm_mkSlot (op : Byte) (imm : Cell) : slotImm (mkSlot op imm) = imm := by
  have := imm.isLt
  exact BitVec.eq_of_toNat_eq (by rw [slotImm_toNat, mkSlot_toNat]; omega)

theorem mkSlot_fields (w : Slot) : mkSlot (slotOp w) (slotImm w) = w :=
  BitVec.eq_of_toNat_eq (by rw [mkSlot_toNat, slotOp_toNat, slotImm_toNat]; omega)

/-- A decoder that has read the fields answers by the opcode alone for the push rows. -/
theorem noPayload_zero (op : Byte) (i : Instr) : noPayload op 0#64 i = .ok i := rfl

/-- R68: with any other immediate the opcode decodes to nothing. -/
theorem noPayload_nonzero (op : Byte) {imm : Cell} (h : imm ≠ 0#64) (i : Instr) :
    noPayload op imm i = .error (.nonzeroImmediate op imm) := if_neg h

end Sys2Proof
end

