-- ==== Sys2Proof/Laws/Float.lean ====
section
/-! SUPPORT. Reading and rounding binary64 patterns: the nearest integer of a quotient, and which sign, significand and
exponent a pattern reads as. -/

namespace Sys2Proof.Machine

/-- The distance of `num` from the multiple `k` of `d`. -/
def distance (num d k : Nat) : Nat := if num ≤ d * k then d * k - num else num - d * k

/-- R131: no multiple is nearer than the one chosen, and if another is as near then the one chosen is even. -/
theorem nearestEven_near (num : Nat) {d : Nat} (hd : 0 < d) (k : Nat) :
    distance num d (nearestEven num d) ≤ distance num d k ∧
    (distance num d (nearestEven num d) = distance num d k → k ≠ nearestEven num d → nearestEven num d % 2 = 0) := by
  have hdm : d * (num / d) + num % d = num := Nat.div_add_mod num d
  have hr : num % d < d := Nat.mod_lt num hd
  have key : ∀ j : Nat, (k ≤ j → d * k ≤ d * j) ∧ (j ≤ k → d * j ≤ d * k) := fun j => ⟨Nat.mul_le_mul_left d, Nat.mul_le_mul_left d⟩
  have hs : d * (num / d + 1) = d * (num / d) + d := by ring
  have hs2 : d * (num / d + 2) = d * (num / d) + 2 * d := by ring
  unfold nearestEven distance
  simp only
  generalize hq : num / d = q at *
  generalize hrr : num % d = r at *
  have k1 := key q; have k2 := key (q+1); have k3 := key (q+2)
  have k0 : q = 0 ∨ (1 ≤ q ∧ (k ≤ q - 1 → d * k ≤ d * (q - 1)) ∧ d * (q-1) + d = d * q) := by
    rcases Nat.eq_zero_or_pos q with h | h
    · exact .inl h
    · refine .inr ⟨h, (key (q-1)).1, ?_⟩
      have : q = (q - 1) + 1 := by omega
      conv_rhs => rw [this]
      ring
  have hk : k + 1 ≤ q ∨ k = q ∨ k = q + 1 ∨ q + 2 ≤ k := by omega
  rcases hk with h | rfl | rfl | h
  · rcases k0 with h0 | ⟨h0, h1, h2⟩
    · omega
    · have := h1 (by omega)
      split <;> constructor <;> (try split) <;> (try split) <;> intros <;> omega
  · split <;> constructor <;> (try split) <;> (try split) <;> intros <;> omega
  · split <;> constructor <;> (try split) <;> (try split) <;> intros <;> omega
  · have := k3.2 h
    split <;> constructor <;> (try split) <;> (try split) <;> intros <;> omega

theorem zeroBits_toNat (neg : Bool) : (zeroBits neg).toNat = if neg then 2^63 else 0 := by cases neg <;> rfl

/-- Setting the sign bit of a 63-bit magnitude. -/
theorem signed_toNat (neg : Bool) {m : Nat} (hm : m < 2^63) : (zeroBits neg ||| BitVec.ofNat 64 m).toNat = (if neg then 2^63 else 0) + m := by
  rw [BitVec.toNat_or, BitVec.toNat_ofNat, Nat.mod_eq_of_lt (by omega), zeroBits_toNat]
  cases neg
  · simp
  · have := Nat.shiftLeft_add_eq_or_of_lt hm 1
    simp [Nat.shiftLeft_eq] at this ⊢
    exact this.symm

theorem f64Sign_eq (v : Cell) : f64Sign v = decide (2^63 ≤ v.toNat) := by
  simp [f64Sign, BitVec.msb_eq_decide]

/-- R9: what a sign and a finite magnitude field read as. -/
theorem f64_pattern (v : Cell) (neg : Bool) (m : Nat) (hm : m < 2047 * 2^52) (hv : v.toNat = (if neg then 2^63 else 0) + m) :
    f64 v = if m < 2^52 then .finite neg m 0 else .finite neg (m % 2^52 + 2^52) (m / 2^52 - 1) := by
  have hs : f64Sign v = neg := by rw [f64Sign_eq, hv]; (cases neg <;> simp); omega
  have he : f64Exponent v = m / 2^52 := by unfold f64Exponent; rw [hv]; cases neg <;> simp <;> omega
  have hf : f64Fraction v = m % 2^52 := by unfold f64Fraction; rw [hv]; (cases neg <;> simp); omega
  unfold f64
  rw [hs, he, hf, if_neg (by omega)]
  by_cases h : m < 2^52
  · rw [if_pos h, if_pos (by omega), Nat.mod_eq_of_lt h]
  · rw [if_neg h, if_neg (by omega)]

/-- R9, R133: the bounds on a finite reading, and the pattern it comes from. -/
theorem f64_finite (v : Cell) (neg : Bool) (sig exp : Nat) (h : f64 v = .finite neg sig exp) :
    sig < 2^53 ∧ (0 < exp → 2^52 ≤ sig) ∧ exp ≤ 2045 ∧ v.toNat = (if neg then 2^63 else 0) + exp * 2^52 + sig := by
  have hlt := v.isLt
  have hs := f64Sign_eq v
  unfold f64 f64Exponent f64Fraction at h
  split at h
  · split at h <;> cases h
  · have hsg : (if f64Sign v = true then 2^63 else 0) = 2^63 * (v.toNat / 2^63) := by
      rw [hs]; by_cases h63 : 2^63 ≤ v.toNat
      · rw [if_pos (decide_eq_true h63)]; omega
      · rw [if_neg (by simpa using h63)]; omega
    split at h <;> cases h <;> rw [hsg] <;> exact ⟨by omega, by omega, by omega, by omega⟩

theorem f64_infBits (neg : Bool) : f64 (infBits neg) = .inf neg := by
  cases neg <;> decide

end Sys2Proof.Machine
end

