-- ==== Sys2Proof/Laws/PerInstr.lean ====
section
/-! SUPPORT. Statements made instruction by instruction about the syntax. `EncodingLegal`: the slot of an instruction is a
legal one (R69), with the opcode and the immediate of its row (R62). -/

namespace Sys2Proof.Laws.EncodingLegal

/-- The encoding of `i` is a legal slot whose fields are those of its row. -/
def Statement (i : Instr) : Prop :=
  Slot.wellFormed (encode i) = true ∧ slotOp (encode i) = opcode i ∧ slotImm (encode i) = immediate i

theorem fields (i : Instr) : slotOp (encode i) = opcode i ∧ slotImm (encode i) = immediate i :=
  ⟨slotOp_mkSlot _ _, slotImm_mkSlot _ _⟩

theorem opField_encode (i : Instr) : Slot.opField (encode i) = (opcode i).toNat := by
  rw [Slot.opField, ← slotOp_toNat, (fields i).1]

theorem immField_encode (i : Instr) : Slot.immField (encode i) = (immediate i).toNat := by
  rw [Slot.immField, ← slotImm_toNat, (fields i).2]

theorem wellFormed_encode {i : Instr} (hop : (opcode i).toNat ≤ 0x0A)
    (himm : (opcode i).toNat ≤ 0x01 ∨ immediate i = 0#64) : Statement i := by
  refine ⟨?_, fields i⟩
  simp only [Slot.wellFormed, opField_encode, immField_encode]
  rcases himm with h | h <;> simp [h, hop]

theorem pushInteger (v : Cell) : Statement (.pushInteger v) := wellFormed_encode (by simp [opcode]) (by simp [opcode])
theorem pushFloat (x : Cell) : Statement (.pushFloat x) := wellFormed_encode (by simp [opcode]) (by simp [opcode])
theorem pop : Statement .pop := wellFormed_encode (by decide) (by decide)
theorem addInt : Statement .addInt := wellFormed_encode (by decide) (by decide)
theorem subInt : Statement .subInt := wellFormed_encode (by decide) (by decide)
theorem mulInt : Statement .mulInt := wellFormed_encode (by decide) (by decide)
theorem divInt : Statement .divInt := wellFormed_encode (by decide) (by decide)
theorem addFloat : Statement .addFloat := wellFormed_encode (by decide) (by decide)
theorem subFloat : Statement .subFloat := wellFormed_encode (by decide) (by decide)
theorem mulFloat : Statement .mulFloat := wellFormed_encode (by decide) (by decide)
theorem divFloat : Statement .divFloat := wellFormed_encode (by decide) (by decide)

end Sys2Proof.Laws.EncodingLegal
end

