-- ==== Sys2Proof/Machine/Assembler.lean ====
section
/-! DEFINITION. The assembler text of `30_encoding.md` R70 and R71: one instruction, and a program as a bracketed list or
one instruction a line. No pseudo-instructions, labels or directives (R71). Texts are lists of characters; what the spec
leaves open of the literal grammar is log 16. -/

namespace Sys2Proof.Machine

/-- Blanks are ignored around items and operands (log 16). -/
def isBlank (c : Char) : Bool := c == ' ' || c == '\t' || c == '\r'

/-- A text without the blanks around it. -/
def trim (t : List Char) : List Char :=
  ((t.dropWhile isBlank).reverse.dropWhile isBlank).reverse

/-- The parts of a text between the occurrences of a character. -/
def splitParts (sep : Char) : List Char → List (List Char)
  | [] => [[]]
  | c :: rest =>
    if c == sep then [] :: splitParts sep rest
    else
      match splitParts sep rest with
      | [] => [[c]]
      | p :: ps => (c :: p) :: ps

/-- The value of a digit in base 16. -/
def digitValue (c : Char) : Option Nat :=
  if '0' ≤ c ∧ c ≤ '9' then some (c.toNat - '0'.toNat)
  else if 'a' ≤ c ∧ c ≤ 'f' then some (c.toNat - 'a'.toNat + 10)
  else if 'A' ≤ c ∧ c ≤ 'F' then some (c.toNat - 'A'.toNat + 10)
  else none

/-- The number of a run of digits in a base, continuing from `acc`. -/
def digitsFrom (base acc : Nat) : List Char → Option Nat
  | [] => some acc
  | c :: rest =>
    match digitValue c with
    | none => none
    | some d => if d < base then digitsFrom base (acc * base + d) rest else none

/-- The number of a non-empty run of digits. -/
def digits (base : Nat) (t : List Char) : Option Nat :=
  match t with
  | [] => none
  | _ :: _ => digitsFrom base 0 t

/-- A leading minus sign, and the text after it. -/
def signOf : List Char → Bool × List Char
  | '-' :: rest => (true, rest)
  | t => (false, t)

/-- R70: the operand of push-integer. A decimal literal, or a hexadecimal one with a minus sign, must lie in
[-2^63, 2^63 - 1]; a hexadecimal one without a sign denotes the bit pattern (log 16). Outside its range it is refused. -/
def integerLiteral (t : List Char) : Option Cell :=
  match signOf t with
  | (neg, '0' :: 'x' :: hex) =>
    match digits 16 hex with
    | none => none
    | some n =>
      if neg then (if n ≤ 2 ^ 63 then some (bits64 (-(n : Int))) else none)
      else if n < 2 ^ 64 then some (BitVec.ofNat 64 n) else none
  | (neg, body) =>
    match digits 10 body with
    | none => none
    | some n =>
      let v : Int := if neg then -(n : Int) else n
      if fits64 v then some (bits64 v) else none

/-- The exponent part of a decimal float literal: nothing, or `e` with a signed decimal number. -/
def exponentPart : List Char → Option Int
  | [] => some 0
  | _ :: '-' :: ds => (digits 10 ds).map fun n => -(n : Int)
  | _ :: '+' :: ds => (digits 10 ds).map fun n => (n : Int)
  | _ :: ds => (digits 10 ds).map fun n => (n : Int)

/-- R70, D25: the binary64 value nearest to `(-1)^neg * n * 10^e`, ties to even. -/
def decimalFloat (neg : Bool) (n : Nat) (e : Int) : Cell :=
  if 0 ≤ e then roundUnits neg (n * 10 ^ e.toNat * unitsPerOne) 1
  else roundUnits neg (n * unitsPerOne) (10 ^ (-e).toNat)

/-- Whether a character begins the exponent part of a decimal float literal. -/
def isExponentMark (c : Char) : Bool := c == 'e' || c == 'E'

/-- R70: a decimal floating-point literal: digits, an optional fraction, an optional exponent (log 16). -/
def decimalLiteral (t : List Char) : Option Cell :=
  let (neg, body) := signOf t
  let mantissa := body.takeWhile fun c => !isExponentMark c
  let whole := mantissa.takeWhile fun c => c != '.'
  let fraction :=
    match mantissa.dropWhile fun c => c != '.' with
    | [] => some []
    | [_] => none
    | _ :: ds => some ds
  match digits 10 whole, fraction, exponentPart (body.dropWhile fun c => !isExponentMark c) with
  | some _, some ds, some e => (digits 10 (whole ++ ds)).map fun n => decimalFloat neg n (e - (ds.length : Int))
  | _, _, _ => none

/-- R70: the operand of push-float: a decimal literal, or `bits=0x` and exactly 16 hexadecimal digits. -/
def floatLiteral (t : List Char) : Option Cell :=
  match t with
  | 'b' :: 'i' :: 't' :: 's' :: '=' :: '0' :: 'x' :: hex =>
    if hex.length = 16 then (digits 16 hex).map (BitVec.ofNat 64) else none
  | _ => decimalLiteral t

/-- R70: the operand between the parentheses; none where they are missing. -/
def operandText : List Char → Option (List Char)
  | '(' :: rest =>
    match rest.reverse with
    | ')' :: body => some (trim body.reverse)
    | _ => none
  | _ => none

/-- R70: the nine mnemonics that take no operand and no parentheses. -/
def plainInstrs : List Instr :=
  [.pop, .addInt, .subInt, .mulInt, .divInt, .addFloat, .subFloat, .mulFloat, .divFloat]

/-- R70: one instruction. -/
def assembleInstr (t : List Char) : Option Instr :=
  let item := trim t
  let name := trim (item.takeWhile fun c => c != '(')
  let rest := item.dropWhile fun c => c != '('
  if name = (mnemonic (.pushInteger 0#64)).toList then
    ((operandText rest).bind integerLiteral).map .pushInteger
  else if name = (mnemonic (.pushFloat 0#64)).toList then
    ((operandText rest).bind floatLiteral).map .pushFloat
  else
    match rest with
    | [] => plainInstrs.find? fun i => name == (mnemonic i).toList
    | _ :: _ => none

/-- R70: every item is one instruction; a program with a bad item is refused. -/
def assembleItems : List (List Char) → Option (List Instr)
  | [] => some []
  | t :: rest =>
    match assembleInstr t, assembleItems rest with
    | some i, some is => some (i :: is)
    | _, _ => none

/-- R70: a program: a comma-separated list in square brackets, or one instruction a line, empty lines aside (log 16). -/
def assemble (t : List Char) : Option (List Instr) :=
  match trim t with
  | '[' :: rest =>
    match rest.reverse with
    | ']' :: body =>
      if (trim body).isEmpty then some [] else assembleItems (splitParts ',' body.reverse)
    | _ => none
  | body => assembleItems ((splitParts '\n' body).filter fun line => !(trim line).isEmpty)

/-- R71: every instruction is exactly one slot. -/
def assembleSlots (t : List Char) : Option (List Slot) :=
  (assemble t).map fun is => is.map encode

end Sys2Proof.Machine
end

