-- ==== Sys2Proof/Machine/HostSoftware.lean ====
section
/-! DEFINITION. The compiler's contract (`00_scope.md` R11 to R13): software on the host, outside the hardware (R4), kept
for the end-to-end vectors of `95_test_vectors.md`. Nothing of the core depends on it (log 17). -/

namespace Sys2Proof.Machine

/-- R11: the four operators of an Expression. -/
inductive ExprOp where
  | add | sub | mul | div
  deriving DecidableEq, Repr

/-- R11: a finite tree of signed 64-bit literals and binary nodes. -/
inductive Expr where
  | lit (v : Cell)
  | node (op : ExprOp) (left right : Expr)
  deriving DecidableEq, Repr

/-- R12: the integer instruction of an operator. -/
def exprOpInstr : ExprOp → Instr
  | .add => .addInt
  | .sub => .subInt
  | .mul => .mulInt
  | .div => .divInt

/-- R12: `compile`, total and pure: left, right, then the operator (R13). -/
def compile : Expr → List Instr
  | .lit v => [.pushInteger v]
  | .node op left right => compile left ++ compile right ++ [exprOpInstr op]

end Sys2Proof.Machine
end

