-- ==== Sys2Proof/Tests/Slice0.lean ====
section
/-! SUPPORT. The model's own tests, their expected results taken from `30_encoding.md` section 7 and `95_test_vectors.md`,
and a witness for the hypotheses of every statement. A stack is written top first, as State holds it. -/

namespace Sys2Proof.Tests

open Sys2Proof.Machine Sys2Proof.Claims

/-- A core with 8 slots of code store and 4 cells of stack. -/
def small (o : Config.IntOverflow) : Config.Params := { codeMax := 8, stackCap := .bounded 2, intOverflow := o }

/-- A state of such a core, `pc` at index 0, no command waiting. -/
def sample (r : RunState) (code : List Slot) (cells : List Cell) : State :=
  { pc := 0#64, code := code, stack := cells, runState := r, err := none, pending := [], replies := [], params := small .wrap }

/-- A RUNNING core at index 0 of a one-slot program, with the cells given. -/
def onCells (cells : List Cell) : State := sample .running [0#72] cells

/-- The same core with `INT_OVERFLOW = FAULT`. -/
def onFaulting (cells : List Cell) : State := { onCells cells with params := small .fault }

/-- What a test looks at: the stack, pc, and the code of `ERR`. -/
def seen : Host.Outcome State Fault Refusal → Option (List Cell × Nat × Nat)
  | .next t => some (t.stack, t.pc.toNat, (errCode t.err).toNat)
  | .fault _ => none
  | .refused _ => none

/-- The response and the value a host command gets in its turn. -/
def answerOf (c : Command) (s : State) : List (Nat × Option Cell) :=
  (hostStep { s with pending := [c] }).replies.map fun r => ((responseCode r.response).toNat, r.value)

/-! ### Well-formedness smoke -/

/-- R67, R68: an unassigned opcode and a stray immediate are refused by the check. -/
theorem test_wellFormed_refuses :
    Slot.wellFormed 0x0B0000000000000000#72 = false ∧ Slot.wellFormed 0x020000000000000001#72 = false ∧
    Slot.wellFormed 0x00FFFFFFFFFFFFFFFF#72 = true := by decide

/-- R6, R151: a parameter record with `CODE_MAX = 0`, and a program longer than `CODE_MAX`, are refused. -/
theorem test_params_refuse :
    ¬ ({ codeMax := 0, stackCap := .unbounded, intOverflow := .wrap } : Config.Params).wf ∧
    Params.accepts (small .wrap) (List.replicate 9 0#72) = false ∧
    Params.accepts (small .wrap) (List.replicate 8 0#72) = true := by decide

/-- R60: no instruction is malformed, so the check refuses none. -/
theorem test_instr_wellFormed : Instr.wellFormed (.pushInteger 0#64) = true ∧ Instr.wellFormed .divFloat = true := by decide

/-! ### Decoding, words from `30_encoding.md` section 7 -/

theorem test_decode_pushInteger : decode 0x00FFFFFFFFFFFFFFFD#72 = .ok (.pushInteger 0xFFFFFFFFFFFFFFFD#64) := by decide
theorem test_decode_pushFloat : decode 0x018000000000000000#72 = .ok (.pushFloat 0x8000000000000000#64) := by decide
theorem test_decode_pop : decode 0x020000000000000000#72 = .ok .pop := by decide
theorem test_decode_addInt : decode 0x030000000000000000#72 = .ok .addInt := by decide
theorem test_decode_subInt : decode 0x040000000000000000#72 = .ok .subInt := by decide
theorem test_decode_mulInt : decode 0x050000000000000000#72 = .ok .mulInt := by decide
theorem test_decode_divInt : decode 0x060000000000000000#72 = .ok .divInt := by decide
theorem test_decode_addFloat : decode 0x070000000000000000#72 = .ok .addFloat := by decide
theorem test_decode_subFloat : decode 0x080000000000000000#72 = .ok .subFloat := by decide
theorem test_decode_mulFloat : decode 0x090000000000000000#72 = .ok .mulFloat := by decide
theorem test_decode_divFloat : decode 0x0A0000000000000000#72 = .ok .divFloat := by decide

/-- X6, X7, X9. -/
theorem test_decode_illegal :
    decode 0x0B0000000000000000#72 = .error (.unassignedOpcode 0x0B#8) ∧
    decode 0xFF0000000000000000#72 = .error (.unassignedOpcode 0xFF#8) ∧
    decode 0x038000000000000000#72 = .error (.nonzeroImmediate 0x03#8 0x8000000000000000#64) := by decide

/-- R44: byte 0 is `OP`, bytes 1..8 are `IMM` little-endian; fewer than 9 bytes are no slot. -/
theorem test_decode_bytes :
    decodeBytes [0x01, 0x9A, 0x99, 0x99, 0x99, 0x99, 0x99, 0xF1, 0x3F, 0x55] =
      .ok (.pushFloat 0x3FF199999999999A#64, [0x55]) ∧
    decodeBytes [0x02, 0, 0, 0, 0, 0, 0, 0] = .error .truncated := by decide

/-- The row of sub-float as spec/opcode_table.json numbers its bits, and an illegal word. -/
theorem test_decode_tableWord :
    decodeTableWord 72 0x080000000000000000 = some .subFloat ∧ decodeTableWord 72 0x080000000000000001 = none := by decide

/-- The first step from reset runs the slot placed, for a row that commits there and for one that halts there. -/
theorem test_fetchWord_runs :
    seen (step (State.reset.withFetchWord 72 0x000000000000000005)) = some ([5#64], 1, 0) ∧
    seen (step (State.reset.withFetchWord 72 0x0A0000000000000000)) = some ([], 0, 1) := by
  constructor <;> rfl

/-! ### One step of each instruction, vectors of `95_test_vectors.md` part 2 -/

/-- S2, and S8 at the capacity. -/
theorem test_pushInteger :
    seen (exec (.pushInteger 0x8000000000000000#64) (onCells [])) = some ([0x8000000000000000#64], 1, 0) ∧
    seen (exec (.pushInteger 3#64) (onCells [4#64, 3#64, 2#64, 1#64])) = some ([4#64, 3#64, 2#64, 1#64], 0, 3) := by decide

/-- S4: a signalling NaN is pushed unchanged. -/
theorem test_pushFloat :
    seen (exec (.pushFloat 0x7FF0000000000001#64) (onCells [])) = some ([0x7FF0000000000001#64], 1, 0) := by decide

/-- S6, S7. -/
theorem test_pop :
    seen (exec .pop (onCells [7#64])) = some ([], 1, 0) ∧ seen (exec .pop (onCells [])) = some ([], 1, 0) := by decide

/-- I2 under both overflow settings. -/
theorem test_addInt_overflow :
    seen (exec .addInt (onCells [1#64, 0x7FFFFFFFFFFFFFFF#64])) = some ([0x8000000000000000#64], 1, 0) ∧
    seen (exec .addInt (onFaulting [1#64, 0x7FFFFFFFFFFFFFFF#64])) = some ([1#64, 0x7FFFFFFFFFFFFFFF#64], 0, 5) := by decide

/-- S9: a full stack does not stop a binary operation; I21: one cell is too few. -/
theorem test_addInt_depth :
    seen (exec .addInt (onCells [2#64, 1#64, 9#64, 8#64])) = some ([3#64, 9#64, 8#64], 1, 0) ∧
    seen (exec .addInt (onCells [5#64])) = some ([5#64], 0, 1) := by decide

/-- I4 and I5: the earlier operand is the left one. -/
theorem test_subInt_order :
    seen (exec .subInt (onCells [4#64, 1#64])) = some ([0xFFFFFFFFFFFFFFFD#64], 1, 0) ∧
    seen (exec .subInt (onCells [1#64, 4#64])) = some ([3#64], 1, 0) := by decide

/-- I6 under both overflow settings. -/
theorem test_subInt_overflow :
    seen (exec .subInt (onCells [0x8000000000000000#64, 0#64])) = some ([0x8000000000000000#64], 1, 0) ∧
    seen (exec .subInt (onFaulting [0x8000000000000000#64, 0#64])) = some ([0x8000000000000000#64, 0#64], 0, 5) := by decide

/-- I9, I10, I12. -/
theorem test_mulInt :
    seen (exec .mulInt (onCells [0xFFFFFFFFFFFFFFF9#64, 6#64])) = some ([0xFFFFFFFFFFFFFFD6#64], 1, 0) ∧
    seen (exec .mulInt (onCells [0x100000000#64, 0x100000000#64])) = some ([0#64], 1, 0) ∧
    seen (exec .mulInt (onCells [2#64, 0x4000000000000000#64])) = some ([0x8000000000000000#64], 1, 0) := by decide

/-- The sign table of R116 (I14 to I16, I20): truncation toward zero, and -2^63 / -1 under both overflow settings. -/
theorem test_divInt_signs :
    seen (exec .divInt (onCells [2#64, 0xFFFFFFFFFFFFFFF9#64])) = some ([0xFFFFFFFFFFFFFFFD#64], 1, 0) ∧
    seen (exec .divInt (onCells [0xFFFFFFFFFFFFFFFE#64, 7#64])) = some ([0xFFFFFFFFFFFFFFFD#64], 1, 0) ∧
    seen (exec .divInt (onCells [0xFFFFFFFFFFFFFFFE#64, 0xFFFFFFFFFFFFFFF9#64])) = some ([3#64], 1, 0) ∧
    seen (exec .divInt (onCells [0xFFFFFFFFFFFFFFFF#64, 0x8000000000000000#64])) = some ([0x8000000000000000#64], 1, 0) ∧
    seen (exec .divInt (onFaulting [0xFFFFFFFFFFFFFFFF#64, 0x8000000000000000#64])) =
      some ([0xFFFFFFFFFFFFFFFF#64, 0x8000000000000000#64], 0, 5) := by decide

/-- I17, I19, I22: the divisor is the top; with too few cells the error is `OutOfBounds`. -/
theorem test_divInt_errors :
    seen (exec .divInt (onCells [0#64, 1#64])) = some ([0#64, 1#64], 0, 2) ∧
    seen (exec .divInt (onCells [1#64, 0#64])) = some ([0#64], 1, 0) ∧
    seen (exec .divInt (onCells [])) = some ([], 0, 1) := by decide

/-- F1, F2, F5: rounding, and overflow to infinity. -/
theorem test_addFloat_rounds :
    seen (exec .addFloat (onCells [0x4012000000000000#64, 0x3FF199999999999A#64])) = some ([0x4016666666666666#64], 1, 0) ∧
    seen (exec .addFloat (onCells [0x3FC999999999999A#64, 0x3FB999999999999A#64])) = some ([0x3FD3333333333334#64], 1, 0) ∧
    seen (exec .addFloat (onCells [0x7FEFFFFFFFFFFFFF#64, 0x7FEFFFFFFFFFFFFF#64])) =
      some ([0x7FF0000000000000#64], 1, 0) := by decide +kernel

/-- F3, F4, F24: signed zeros, and integer cells read as subnormals. -/
theorem test_addFloat_zeros :
    seen (exec .addFloat (onCells [0x8000000000000000#64, 0#64])) = some ([0#64], 1, 0) ∧
    seen (exec .addFloat (onCells [0x8000000000000000#64, 0x8000000000000000#64])) = some ([0x8000000000000000#64], 1, 0) ∧
    seen (exec .addFloat (onCells [4#64, 1#64])) = some ([5#64], 1, 0) := by decide +kernel

/-- F7, F8: the operand order. -/
theorem test_subFloat_order :
    seen (exec .subFloat (onCells [0x4004000000000000#64, 0x4024000000000000#64])) = some ([0x401E000000000000#64], 1, 0) ∧
    seen (exec .subFloat (onCells [0x4024000000000000#64, 0x4004000000000000#64])) = some ([0xC01E000000000000#64], 1, 0) := by
  decide +kernel

/-- F9, F10, F26. -/
theorem test_subFloat_zeros :
    seen (exec .subFloat (onCells [0#64, 0x8000000000000000#64])) = some ([0x8000000000000000#64], 1, 0) ∧
    seen (exec .subFloat (onCells [0x3FF8000000000000#64, 0x3FF8000000000000#64])) = some ([0#64], 1, 0) ∧
    seen (exec .subFloat (onCells [4#64, 1#64])) = some ([0x8000000000000003#64], 1, 0) := by decide +kernel

/-- F11 to F13. -/
theorem test_mulFloat_normal :
    seen (exec .mulFloat (onCells [0x4010000000000000#64, 0x3FF8000000000000#64])) = some ([0x4018000000000000#64], 1, 0) ∧
    seen (exec .mulFloat (onCells [0xBFF0000000000000#64, 0#64])) = some ([0x8000000000000000#64], 1, 0) ∧
    seen (exec .mulFloat (onCells [0x4024000000000000#64, 0x7FE1CCF385EBC8A0#64])) =
      some ([0x7FF0000000000000#64], 1, 0) := by decide +kernel

/-- F14 to F16: ties to even among the subnormals, no flush to zero. -/
theorem test_mulFloat_subnormal :
    seen (exec .mulFloat (onCells [0x3FE0000000000000#64, 1#64])) = some ([0#64], 1, 0) ∧
    seen (exec .mulFloat (onCells [0x3FE0000000000000#64, 3#64])) = some ([2#64], 1, 0) ∧
    seen (exec .mulFloat (onCells [0x3FE0000000000000#64, 0x0010000000000000#64])) =
      some ([0x0008000000000000#64], 1, 0) := by decide +kernel

/-- F17, F18, F23. -/
theorem test_divFloat_rounds :
    seen (exec .divFloat (onCells [0x4000000000000000#64, 0x401C000000000000#64])) = some ([0x400C000000000000#64], 1, 0) ∧
    seen (exec .divFloat (onCells [0x4008000000000000#64, 0x3FF0000000000000#64])) = some ([0x3FD5555555555555#64], 1, 0) ∧
    seen (exec .divFloat (onCells [1#64, 0x3FF0000000000000#64])) = some ([0x7FF0000000000000#64], 1, 0) := by decide +kernel

/-- F19 to F21: both zeros divide by zero, whatever the dividend. -/
theorem test_divFloat_byZero :
    seen (exec .divFloat (onCells [0#64, 0x3FF0000000000000#64])) = some ([0#64, 0x3FF0000000000000#64], 0, 2) ∧
    seen (exec .divFloat (onCells [0x8000000000000000#64, 0x3FF0000000000000#64])) =
      some ([0x8000000000000000#64, 0x3FF0000000000000#64], 0, 2) ∧
    seen (exec .divFloat (onCells [0#64, 0x7FF8000000000000#64])) = some ([0#64, 0x7FF8000000000000#64], 0, 2) := by
  decide +kernel

/-! ### Loop and host interface -/

/-- H1, H13: at the end of the code the run completes; an illegal slot halts with code 4 and pc on it. -/
theorem test_loop_ends :
    seen (step (sample .running [] [3#64])) = some ([3#64], 0, 0) ∧
    seen (step (sample .running [0x0B0000000000000000#72] [3#64])) = some ([3#64], 0, 4) := by decide

/-- H2, H3, H10: the responses in EMPTY. -/
theorem test_host_empty :
    answerOf .start State.reset = [(0xFF, none)] ∧ answerOf (.readInt 0#64) State.reset = [(1, none)] ∧
    answerOf (.readReg 7#64) State.reset = [(0, some 0#64)] := by
  refine ⟨?_, ?_, ?_⟩ <;> rfl

/-- H5, H6: the registers after a halt. -/
theorem test_host_registers :
    let s := { sample .halted [0#72, 0#72, 0#72] [0#64, 1#64] with pc := 2#64, err := some .divByZero }
    answerOf (.readReg 0#64) s = [(0, some 0x204#64)] ∧ answerOf (.readReg 1#64) s = [(0, some 2#64)] ∧
    answerOf (.readReg 2#64) s = [(0, some 2#64)] ∧ answerOf (.readReg 3#64) s = [(0, some 3#64)] := by decide

/-- H8, H9: the accessors' indexes, the stack being [10, 20, 30] bottom first. -/
theorem test_host_index :
    let s := sample .completed [] [30#64, 20#64, 10#64]
    answerOf (.readInt 0#64) s = [(0, some 10#64)] ∧ answerOf (.readInt 2#64) s = [(0, some 30#64)] ∧
    answerOf (.readFloat (-1#64)) s = [(0, some 30#64)] ∧ answerOf (.readInt (-3#64)) s = [(0, some 10#64)] ∧
    answerOf (.readInt 3#64) s = [(1, none)] ∧ answerOf (.readInt (-4#64)) s = [(1, none)] ∧
    answerOf (.readInt 0x8000000000000000#64) s = [(1, none)] := by decide

/-- H11, H12: LOAD after a halt, and of a program over `CODE_MAX`. -/
theorem test_host_load :
    let s := { sample .halted [0#72] [1#64] with err := some .outOfBounds }
    answerOf (.load [2#72]) s = [(0, none)] ∧ (performLoad [2#72] s).runState = .ready ∧ (performLoad [2#72] s).stack = [] ∧
    answerOf (.load (List.replicate 9 0#72)) s = [(3, none)] ∧ (performLoad (List.replicate 9 0#72) s).code = [0#72] := by decide

/-! ### Assembler and compiler -/

/-- R70, section 7: literals. -/
theorem test_assemble_literals :
    integerLiteral "-3".toList = some 0xFFFFFFFFFFFFFFFD#64 ∧ integerLiteral "0xFFFFFFFFFFFFFFFF".toList = some (-1#64) ∧
    integerLiteral "9223372036854775808".toList = none ∧
    floatLiteral "1.1".toList = some 0x3FF199999999999A#64 ∧ floatLiteral "-0.0".toList = some 0x8000000000000000#64 ∧
    floatLiteral "5e-324".toList = some 1#64 ∧ floatLiteral "1e308".toList = some 0x7FE1CCF385EBC8A0#64 ∧
    floatLiteral "bits=0x7FF0000000000001".toList = some 0x7FF0000000000001#64 ∧
    floatLiteral "bits=0x7FF".toList = none := by decide +kernel

/-- R70: both program forms; a mnemonic with a stray operand is refused. -/
theorem test_assemble_program :
    assemble "[push-integer(1), push-integer(4), add-int]".toList =
      some [.pushInteger 1#64, .pushInteger 4#64, .addInt] ∧
    assemble "push-float(4.5)\npop\n".toList = some [.pushFloat 0x4012000000000000#64, .pop] ∧
    assemble "[pop(1)]".toList = none ∧ assemble "[]".toList = some [] := by decide +kernel

/-- E2, E7. -/
theorem test_compile :
    compile (.node .sub (.lit 2#64) (.lit 3#64)) = [.pushInteger 2#64, .pushInteger 3#64, .subInt] := by decide

/-! ### Witnesses: a concrete state and operands that meet the hypotheses of each statement, clause by clause -/

/-- Hypotheses of a step of a RUNNING core: at the end of the code, at an illegal slot, and at an instruction (StepRunsDecodedInstruction,
RunCompletesAtEnd, IllegalSlotHalts, first clauses). -/
theorem witness_running_step :
    (sample .running [] []).runState = .running ∧ (sample .running [] []).pc.toNat = codeLen (sample .running [] []) ∧
    (onCells []).pc.toNat < codeLen (onCells []) ∧ slotAt (onCells []) 0 = some 0#72 ∧
    decode 0#72 = .ok (.pushInteger 0#64) ∧
    slotAt (sample .running [0x0B0000000000000000#72] []) 0 = some 0x0B0000000000000000#72 ∧
    decode 0x0B0000000000000000#72 = .error (.unassignedOpcode 0x0B#8) ∧
    0x0B ≤ (slotOp 0x0B0000000000000000#72).toNat ∧ slotImm 0x0A0000000000000001#72 ≠ 0#64 ∧
    0x0A = (slotOp 0x0A0000000000000001#72).toNat ∧ slotImm 0x020000000000000001#72 ≠ 0#64 ∧
    0x02 = (slotOp 0x020000000000000001#72).toNat := by decide

/-- A step with a slot elsewhere in the code (IllegalSlotHalts, last clause; OnlyLoadWritesCode). -/
theorem witness_unfetched_slot :
    let s := sample .running [0#72, 1#72] []
    s.runState = .running ∧ 1 ≠ s.pc.toNat ∧ ∃ t, step s = .next t ∧ t.code = s.code := ⟨rfl, by decide, _, rfl, rfl⟩

/-- A step that halts, and one that commits (ErrorsArePrecise, HaltWritesOnlyErrAndRunState, CommitAdvancesPc). -/
theorem witness_halting_step :
    (∃ t, step (sample .running [encode .addInt] [5#64]) = .next t ∧ t.runState = .halted) ∧
    (∃ t, exec .addInt (onCells [5#64]) = .next t ∧ t.runState ≠ .running) ∧
    (∃ t, exec .pop (onCells [5#64]) = .next t ∧ t.pc = 1#64) :=
  ⟨⟨_, rfl, rfl⟩, ⟨_, rfl, by decide⟩, ⟨_, rfl, by decide⟩⟩

/-- A reachable state of a RUNNING core meets the invariant (StepKeepsInvariant, StepFromInvariantAnswers, EveryRunEnds,
InvariantHoldsAtReset). -/
theorem witness_invariant : (onCells []).Inv ∧ (onCells []).runState = .running :=
  ⟨⟨by decide, by decide, by decide, by decide, by decide, by decide, by decide, by decide, by decide⟩, rfl⟩

/-- One step from it stays within the run, and the step answers (RunCountsCommits with `k = 1`). -/
theorem witness_run_goes_on :
    (onCells []).pending = [] ∧ ∃ t, Host.Core.run core 1 (onCells []) = .next t ∧ t.runState = .running ∧ t.pc = 1#64 :=
  ⟨rfl, _, rfl, rfl, by decide⟩

/-- Room for a push at depth 3 of 4 cells, and none at depth 4 (PushIntegerRule, PushFloatRule, PushFrame). -/
theorem witness_push :
    capacity (small .wrap).stackCap ≠ some (depth (onCells [3#64, 2#64, 1#64])) ∧
    capacity (small .wrap).stackCap = some (depth (onCells [4#64, 3#64, 2#64, 1#64])) ∧
    (∃ t, exec (.pushFloat 9#64) (onCells [3#64, 2#64, 1#64]) = .next t) := ⟨by decide, by decide, _, rfl⟩

/-- Both stacks of PopRule and PopFrame. -/
theorem witness_pop :
    (onCells [7#64]).stack = [7#64] ∧ (onCells []).stack = [] ∧ ∃ t, exec .pop (onCells [7#64]) = .next t :=
  ⟨rfl, rfl, _, rfl⟩

/-- Two cells within the capacity, and one cell too few (the hypotheses every ALU statement shares: the four integer and the
four float rules, AluNeedsTwoCells, EachErrorHasItsCause). -/
theorem witness_alu_depth :
    (onCells [2#64, 1#64]).stack = 2#64 :: 1#64 :: [] ∧ capHolds (small .wrap).stackCap (depth (onCells [2#64, 1#64])) = true ∧
    depth (onCells [1#64]) < 2 ∧ IsAlu .divFloat := by
  refine ⟨rfl, by decide, by decide, ?_⟩
  simp [IsAlu]

/-- Results at the edge of 64 bits, on both sides, for add, sub and mul, under both settings of `INT_OVERFLOW`
(AddIntRule, SubIntRule, MulIntRule, IntResultRule). -/
theorem witness_integer_edges :
    Fits ((0x7FFFFFFFFFFFFFFE#64).toInt + (1#64).toInt) ∧ ¬ Fits ((0x7FFFFFFFFFFFFFFF#64).toInt + (1#64).toInt) ∧
    Fits ((0x8000000000000001#64).toInt - (1#64).toInt) ∧ ¬ Fits ((0x8000000000000000#64).toInt - (1#64).toInt) ∧
    Fits ((0x8000000000000000#64).toInt * (1#64).toInt) ∧ ¬ Fits ((0x4000000000000000#64).toInt * (2#64).toInt) ∧
    (onCells []).params.intOverflow = .wrap ∧ (onFaulting []).params.intOverflow = .fault := by
  unfold Fits; decide

/-- ZeroTestHasTwoPatterns: a divisor of each class that is not zero, and one divided by with room to push. -/
theorem witness_zero_test :
    f64 0x7FF8000000000000#64 = .nan ∧ f64 0xFFF0000000000000#64 = .inf true ∧ f64 1#64 = .finite false 1 0 ∧
    (onCells [1#64, 2#64]).stack = 1#64 :: 2#64 :: [] ∧
    capHolds (small .wrap).stackCap (depth (onCells [1#64, 2#64])) = true ∧ equalsZero 1#64 = false := by decide +kernel

/-- A zero divisor, an ordinary one beside the overflowing pair, and the overflowing pair (DivIntRule, IntResultRule, TruncatedDivisionRule). -/
theorem witness_division :
    (0#64).toInt = 0 ∧ (1#64).toInt ≠ 0 ∧ (0x8000000000000000#64).toInt = -(2 ^ 63) ∧
    (0xFFFFFFFFFFFFFFFF#64).toInt = -1 ∧ ¬ ((0x8000000000000001#64).toInt = -(2 ^ 63)) ∧ (-1 : Int) ≠ 0 := by decide

/-- Every class of float operand the float rules split on: NaN, both infinities, finite; sums zero and not; a divisor that is
neither zero (AddFloatRule, SubFloatRule, MulFloatRule, DivFloatRule). -/
theorem witness_float_classes :
    f64 0xFFFFFFFFFFFFFFFF#64 = .nan ∧ f64 0x7FF0000000000000#64 = .inf false ∧ f64 0xFFF0000000000000#64 = .inf true ∧
    f64 0#64 = .finite false 0 0 ∧ f64 0x8000000000000000#64 = .finite true 0 0 ∧ f64 1#64 = .finite false 1 0 ∧
    f64 0x7FEFFFFFFFFFFFFF#64 = .finite false (2 ^ 53 - 1) 2045 ∧
    signedUnits false 1 0 + signedUnits true 1 0 = 0 ∧ signedUnits false 1 0 + signedUnits true 0 0 ≠ 0 ∧
    signedUnits false 1 0 - signedUnits false 1 0 = 0 ∧ signedUnits false 0 0 - signedUnits false 1 0 ≠ 0 ∧
    1#64 ≠ 0#64 ∧ 1#64 ≠ 0x8000000000000000#64 := by decide +kernel

/-- The two clauses of RoundingIsNearestEven where they meet: at the midpoint the result is infinity, one unit below it the
largest finite number. -/
theorem witness_rounding_edges :
    (0 < 1 ∧ 1 * overflowUnits ≤ overflowUnits) ∧ roundUnits false overflowUnits 1 = infBits false ∧
    overflowUnits - 1 < 1 * overflowUnits ∧ roundUnits false (overflowUnits - 1) 1 = 0x7FEFFFFFFFFFFFFF#64 := by decide +kernel

/-- FloatAddMulCommute and FloatReadingIsExact: operands whose results are no NaN. -/
theorem witness_float_no_nan :
    capHolds (small .wrap).stackCap (([] : List Cell).length + 2) = true ∧ fadd (f64 1#64) (f64 0#64) ≠ none ∧
    fmul (f64 1#64) (f64 0#64) ≠ none ∧ f64 1#64 = f64 1#64 ∧ f64 1#64 ≠ .nan := by decide +kernel

/-- Each error cause that an instruction can have is met somewhere (EachErrorHasItsCause). -/
theorem witness_error_causes :
    ErrorCause .addInt (onCells [1#64]) .outOfBounds ∧
    ErrorCause (.pushInteger 0#64) (onCells [4#64, 3#64, 2#64, 1#64]) .outOfMemory ∧
    ErrorCause .divInt (onCells [0#64, 1#64]) .divByZero ∧
    ErrorCause .divFloat (onCells [0x8000000000000000#64, 1#64]) .divByZero ∧
    ErrorCause .divInt (onFaulting [0xFFFFFFFFFFFFFFFF#64, 0x8000000000000000#64]) .intOverflow := by
  refine ⟨⟨.inl rfl, by decide⟩, ⟨⟨0#64, .inl rfl⟩, by decide⟩, ⟨_, _, _, rfl, .inl ⟨rfl, by decide⟩⟩,
    ⟨_, _, _, rfl, .inr ⟨rfl, .inr rfl⟩⟩, ⟨rfl, _, _, _, rfl, .inr (.inr (.inr ⟨rfl, by decide, by decide⟩))⟩⟩

/-- A HALTED core leaves by a LOAD, and has a START turned away (HaltedIsTerminal), or idles (HaltWritesOnlyErrAndRunState). -/
theorem witness_halted :
    let s := { sample .halted [0#72] [] with err := some .outOfBounds, pending := [.load [1#72]] }
    s.runState = .halted ∧ (∃ t, step s = .next t ∧ t.runState ≠ .halted) ∧
    ({ s with pending := [.start] } : State).pending = [.start] ∧ ({ s with pending := [] } : State).runState = .halted :=
  ⟨rfl, ⟨_, rfl, by decide⟩, rfl, rfl⟩

/-- AluFrame on a commit and on a halt. -/
theorem witness_alu_frame :
    (∃ t, exec .mulInt (onCells [2#64, 3#64, 1#64]) = .next t ∧ t.stack = [6#64, 1#64]) ∧
    (∃ t, exec .mulInt (onCells [3#64]) = .next t ∧ t.stack = [3#64]) := ⟨⟨_, rfl, by decide⟩, ⟨_, rfl, rfl⟩⟩

/-- CellsAreUntyped: integers 1 and 4 added by either unit leave the pattern 5 (R140), and both pushes answer. -/
theorem witness_untyped :
    ProducesInteger .addInt ∧ ProducesFloat .addFloat ∧
    (∃ t, exec .addInt (onCells [4#64, 1#64]) = .next t ∧ t.stack = [5#64]) ∧
    (∃ u, exec .addFloat (onCells [4#64, 1#64]) = .next u ∧ u.stack = [5#64]) ∧
    (∃ t, exec (.pushInteger 1#64) (onCells []) = .next t) ∧ ∃ u, exec (.pushFloat 1#64) (onCells []) = .next u :=
  ⟨.inr (.inl rfl), .inr (.inl rfl), ⟨_, rfl, by decide⟩, ⟨_, rfl, by decide +kernel⟩, ⟨_, rfl⟩, _, rfl⟩

/-- LOAD of `CODE_MAX` slots, and of one more (LoadRule, ResetAndLoadValues, IllegalSlotHalts); and one held (LoadRule, StartRule). -/
theorem witness_load :
    let s := { sample .completed [] [] with pending := [.load (List.replicate 8 0#72)] }
    s.runState ≠ .running ∧ (List.replicate 8 (0#72 : Slot)).length ≤ s.params.codeMax ∧
    s.params.codeMax < (List.replicate 9 (0#72 : Slot)).length ∧ (∃ t, step s = .next t) ∧
    ∃ t, step { onCells [] with pending := [.load [], .start] } = .next t := ⟨by decide, by decide, by decide, ⟨_, rfl⟩, _, rfl⟩

/-- START in READY, in the states that turn it away, and at the end of a run either way (StartRule). -/
theorem witness_start :
    let s := { sample .ready [0#72] [] with pending := [.start] }
    s.runState = .ready ∧ s.pending = [.start] ∧
    ({ s with runState := .completed } : State).runState = .completed ∧
    (∃ t, step (sample .running [] []) = .next t ∧ t.runState = .completed) ∧
    ∃ t, step (sample .running [0x0B0000000000000000#72] []) = .next t ∧ t.runState = .halted :=
  ⟨rfl, rfl, rfl, ⟨_, rfl, rfl⟩, _, rfl, rfl⟩

/-- ResolveRule: the edges of R155 at depth 3: the first and the last live index of each sign, and the first outside. -/
theorem witness_resolve :
    resolve 3 2#64 = some 2 ∧ resolve 3 3#64 = none ∧ resolve 3 (-1#64) = some 2 ∧ resolve 3 (-3#64) = some 0 ∧
    resolve 3 (-4#64) = none ∧ resolve 0 0#64 = none ∧ (3 : Nat) < 2 ^ 63 := by decide

/-- AccessorRule: a live index, one outside, and a read held during a run. -/
theorem witness_accessor :
    let s := { sample .completed [] [30#64, 20#64, 10#64] with pending := [.readInt 0#64] }
    s.runState ≠ .running ∧ resolve (depth s) 0#64 = some 0 ∧ resolve (depth s) 3#64 = none ∧ (∃ t, step s = .next t) ∧
    ∃ t, step { onCells [] with pending := [.readFloat 0#64] } = .next t ∧ t.pending = [.readFloat 0#64] :=
  ⟨by decide, by decide, by decide, ⟨_, rfl⟩, _, rfl, by decide⟩

/-- ReadsRepeat, with a READ_REG between the two reads. -/
theorem witness_reads_repeat :
    let s := { sample .completed [] [30#64] with pending := [.readInt 0#64, .readReg 2#64, .readInt 0#64] }
    s.runState ≠ .running ∧ s.pending = .readInt 0#64 :: ([.readReg 2#64] ++ .readInt 0#64 :: []) ∧
    (∀ d ∈ [Command.readReg 2#64], d ≠ .start ∧ ∀ slots, d ≠ .load slots) ∧
    ∃ u, Host.Core.run core ([Command.readReg 2#64].length + 2) s = .next u :=
  ⟨by decide, rfl, by simp, _, rfl⟩

/-- ReadRegRule: the first reserved number; reads outside a run, and during one. -/
theorem witness_readReg :
    4 ≤ (4#64).toNat ∧ ({ sample .ready [] [] with pending := [.readReg 3#64] } : State).runState ≠ .running ∧
    ∃ t, step { onCells [] with pending := [.readReg 1#64, .readReg 0#64] } = .next t ∧ t.pending = [.readReg 1#64] :=
  ⟨by decide, by decide, _, rfl, by decide⟩

/-- ReadRegRule's clause about a run takes the invariant: a state that meets it with a read of STATUS waiting. -/
theorem witness_readReg_invariant :
    ({ onCells [] with pending := [.readReg 0#64] } : State).Inv :=
  ⟨by decide, by decide, by decide, by decide, by decide, by decide, by decide, by decide, by decide⟩

/-- CommandsHeldDuringRun, OneResponsePerCommand: a run with a command held, a turn of the host's, and none waiting. -/
theorem witness_commands :
    (∃ t, step { onCells [] with pending := [.start] } = .next t) ∧
    ({ sample .ready [] [] with pending := [.readInt 0#64] } : State).runState ≠ .running ∧
    (sample .ready [] []).pending = [] ∧ ¬ (Command.readInt 0#64 = .start ∧ RunState.ready = .ready) :=
  ⟨⟨_, rfl⟩, by decide, rfl, by decide⟩

/-- LoadThenStartRuns, from power-on with the least `CODE_MAX` there is: a LOAD of one slot is accepted whatever it is. -/
theorem witness_boot :
    let s := { State.reset with pending := [.load [0#72], .start] }
    s.runState ≠ .running ∧ s.pending = .load [0#72] :: .start :: [] ∧ [(0#72 : Slot)].length ≤ s.params.codeMax :=
  ⟨by decide, rfl, Nat.succ_le_succ (Nat.zero_le _)⟩

/-- TypedInstructionFindsOperands: an ALU instruction on two integer cells, and a run whose program keeps the discipline. -/
theorem witness_typed :
    [CellType.integer, .integer].length = depth (onCells [2#64, 1#64]) ∧
    typeStep .addInt [.integer, .integer] = some [.integer] ∧ typeStep .addFloat [.integer, .integer] = none ∧
    ∃ t, exec .addInt (onCells [2#64, 1#64]) = .next t := ⟨by decide, by decide, by decide, _, rfl⟩

theorem witness_typed_program :
    let program := [Instr.pushInteger 1#64, .pushInteger 4#64, .addInt]
    let s := sample .running (program.map encode) []
    s.Inv ∧ s.runState = .running ∧ s.pending = [] ∧ s.code.drop s.pc.toNat = program.map encode ∧
    ([] : List CellType).length = depth s ∧ keepsTypes program [] = true ∧ keepsTypes [.addInt] [] = false ∧
    ∃ t, Host.Core.run core 1 s = .next t :=
  ⟨⟨by decide, by decide, by decide, by decide, by decide, by decide, by decide, by decide, by decide⟩, rfl, rfl, rfl, rfl,
    by decide, by decide, _, rfl⟩

/-- StatusLayout: the two terminal states and an error kind, and ResetAndLoadValues: a power-on reset of a halted core. -/
theorem witness_status :
    let s := { sample .halted [0#72] [] with err := some .illegalInstruction }
    s.runState = .halted ∧ s.err = some .illegalInstruction ∧ statusWord s = 0x404#64 ∧
    statusWord (sample .completed [] []) = 3#64 ∧ statusWord (powerOn s) = 0#64 := by decide

end Sys2Proof.Tests
end

section
/-! Reset and LOAD: what a power-on reset leaves in each field (R190), what the host's turn is for one waiting command
(R157), and what an accepted LOAD writes (R151, R191). -/

namespace Sys2Proof.Machine

section PowerOn
variable (s : State)

@[simp] theorem powerOn_pc : (powerOn s).pc = 0#64 := rfl
@[simp] theorem powerOn_code : (powerOn s).code = [] := rfl
@[simp] theorem powerOn_stack : (powerOn s).stack = [] := rfl
@[simp] theorem powerOn_runState : (powerOn s).runState = .empty := rfl
@[simp] theorem powerOn_err : (powerOn s).err = none := rfl
@[simp] theorem powerOn_pending : (powerOn s).pending = [] := rfl
@[simp] theorem powerOn_replies : (powerOn s).replies = [] := rfl
@[simp] theorem powerOn_params : (powerOn s).params = s.params := rfl

end PowerOn

/-- The state after reset is a fixed point of the power-on reset, so the facts about `powerOn` cover it. -/
theorem powerOn_reset : powerOn State.reset = State.reset := rfl

/-- R29: with `ERR` at `NONE` the status word is the code of the run state, and every other bit reads 0. -/
theorem statusWord_of_err_none {s : State} (h : s.err = none) :
    statusWord s = (runStateCode s.runState).setWidth 64 := by
  unfold statusWord
  rw [h]
  cases s.runState <;> rfl

/-- R157: outside a run a step performs the oldest command, which leaves the waiting list. -/
theorem step_performs_oldest {s : State} {c : Command} {rest : List Command} (hrun : s.runState ≠ .running)
    (hpend : s.pending = c :: rest) : step s = .next (perform c { s with pending := rest }) := by
  rw [step_not_running hrun, hostStep, hpend]

/-- R151, R191: an accepted LOAD replaces the machine state and is answered `OK`. -/
theorem perform_load_accepted {slots : List Slot} {s : State} (h : slots.length ≤ s.params.codeMax) :
    perform (.load slots) s =
      reply (.load slots) .ok none
        { s with code := slots, pc := 0#64, stack := [], runState := .ready, err := none } :=
  if_pos (decide_eq_true h)

/-- R151, R157: the step that takes an accepted LOAD off the head of the waiting list, every field it writes in view. -/
theorem step_load_accepted {s : State} {slots : List Slot} {rest : List Command} (hrun : s.runState ≠ .running)
    (hpend : s.pending = .load slots :: rest) (hlen : slots.length ≤ s.params.codeMax) :
    step s = .next (reply (.load slots) .ok none
      { s with code := slots, pc := 0#64, stack := [], runState := .ready, err := none, pending := rest }) := by
  rw [step_performs_oldest hrun hpend, perform_load_accepted (s := { s with pending := rest }) hlen]

/-- R32: the power-on column, whatever state the reset meets (R190). -/
theorem powerOn_values (s : State) :
    (powerOn s).pc = 0#64 ∧ codeLen (powerOn s) = 0 ∧ depth (powerOn s) = 0 ∧
    (powerOn s).runState = .empty ∧ (powerOn s).err = none ∧ statusWord (powerOn s) = 0#64 :=
  ⟨powerOn_pc s, by simp [codeLen], by simp [depth], powerOn_runState s, powerOn_err s,
    by rw [statusWord_of_err_none (powerOn_err s), powerOn_runState]; rfl⟩

end Sys2Proof.Machine

namespace Sys2Proof.Claims

open Sys2Proof.Machine

/-- Settles O6: the state after reset is its own power-on reset, and the step that performs an accepted LOAD writes
the LOAD column; `STATUS` is the run state's code in both, `ERR` being `NONE`. -/
theorem resetAndLoadValues : Obligations.ResetAndLoadValues := by
  unfold Obligations.ResetAndLoadValues
  refine ⟨powerOn_reset ▸ powerOn_values State.reset, powerOn_values, ?_⟩
  intro s slots rest t hrun hpend hlen hstep
  obtain rfl := Host.Outcome.next.inj ((step_load_accepted hrun hpend hlen).symm.trans hstep)
  refine ⟨rfl, rfl, rfl, rfl, rfl, rfl, ?_⟩
  rw [statusWord_of_err_none rfl]
  rfl

end Sys2Proof.Claims
end

section
/-! The transport form of slots and cells (R44): the little-endian value of a run of bytes of a cell, and the slot that
comes back from its own nine bytes. -/

namespace Sys2Proof

/-- Byte `k` of a cell is its digit `k` in base 256. -/
theorem byte_toNat (v : Cell) (k : Nat) : (v.extractLsb' (8 * k) 8).toNat = v.toNat / 256 ^ k % 256 := by
  rw [BitVec.extractLsb'_toNat, Nat.shiftRight_eq_div_pow, Nat.pow_mul]

/-- `n` bytes of a cell, little-endian from byte `k` on, are its digits `k` to `k + n - 1` in base 256. -/
theorem littleEndian_bytes_from (v : Cell) (k n : Nat) :
    littleEndian ((List.range' k n).map fun j => v.extractLsb' (8 * j) 8) = v.toNat / 256 ^ k % 256 ^ n := by
  induction n generalizing k with
  | zero => simp [littleEndian, Nat.mod_one]
  | succ n ih =>
    rw [List.range'_succ, List.map_cons, littleEndian, ih, byte_toNat, Nat.pow_succ 256 k, ← Nat.div_div_eq_div_mul,
      Nat.pow_succ', Nat.mod_mul]

@[simp] theorem littleEndian_cellBytes (v : Cell) : littleEndian (cellBytes v) = v.toNat := by
  rw [cellBytes, List.range_eq_range', littleEndian_bytes_from, Nat.pow_zero, Nat.div_one]
  exact Nat.mod_eq_of_lt v.isLt

@[simp] theorem cellBytes_length (v : Cell) : (cellBytes v).length = 8 := by simp [cellBytes]

/-- R44: an opcode byte and the bytes of an immediate are read as the slot of the two, and what follows is left over. -/
theorem slotOfBytes_op_cellBytes (op : Byte) (imm : Cell) (rest : List Byte) :
    slotOfBytes (op :: cellBytes imm ++ rest) = some (mkSlot op imm, rest) := by
  have hread : slotOfBytes (op :: cellBytes imm ++ rest) =
      some (mkSlot op (BitVec.ofNat 64 (littleEndian (cellBytes imm))), rest) := rfl
  rw [hread, littleEndian_cellBytes, BitVec.ofNat_toNat, BitVec.setWidth_eq]

/-- R44: a slot comes back from its own nine bytes, whatever follows them. -/
theorem slotOfBytes_slotBytes (w : Slot) (rest : List Byte) : slotOfBytes (slotBytes w ++ rest) = some (w, rest) := by
  rw [slotBytes, slotOfBytes_op_cellBytes, mkSlot_fields]

end Sys2Proof

namespace Sys2Proof.Claims

/-- Settles O5: the bytes of a cell are its base 256 digits, lowest first, so their little-endian value is the cell;
the slot comes back by putting the opcode byte and that immediate together again. -/
theorem slotBytesRoundTrip : Obligations.SlotBytesRoundTrip := by
  unfold Obligations.SlotBytesRoundTrip
  refine ⟨?layout, fun v => ⟨cellBytes_length v, littleEndian_cellBytes v⟩, slotOfBytes_slotBytes⟩
  case layout =>
    intro w
    exact ⟨_, _, _, _, _, _, _, _, rfl, rfl, rfl, rfl⟩

end Sys2Proof.Claims
end

section
/-! Slots and instructions (R61 to R69): encoding meets every legal slot and decodes back, and the slots that the check of
R69 refuses are those that decode to nothing. -/

namespace Sys2Proof

/-- R67, R68: the slots that stand for no instruction: an unassigned opcode, or an opcode with no payload and a stray
immediate. -/
def IllegalSlot (w : Slot) : Prop :=
  0x0B ≤ (slotOp w).toNat ∨ (0x02 ≤ (slotOp w).toNat ∧ (slotOp w).toNat ≤ 0x0A ∧ slotImm w ≠ 0#64)

/-- R61: the value of a slot from its two fields. -/
theorem slot_toNat (w : Slot) : w.toNat = (slotOp w).toNat * 2 ^ 64 + (slotImm w).toNat := by
  rw [← mkSlot_toNat, mkSlot_fields]

theorem slotImm_getLsbD (w : Slot) {k : Nat} (h : k < 64) : (slotImm w).getLsbD k = w.getLsbD k := by
  simp [slotImm, h]

theorem slotOp_getLsbD (w : Slot) {k : Nat} (h : k < 8) : (slotOp w).getLsbD k = w.getLsbD (64 + k) := by
  simp [slotOp, h]

/-- R69: the check refuses exactly the slots that R67 and R68 name. -/
theorem wellFormed_eq_false_iff (w : Slot) : Slot.wellFormed w = false ↔ IllegalSlot w := by
  have himm : slotImm w ≠ 0#64 ↔ (slotImm w).toNat ≠ 0 := BitVec.toNat_ne
  simp only [Slot.wellFormed, Slot.opField, Slot.immField, ← slotOp_toNat, ← slotImm_toNat, IllegalSlot, himm,
    Bool.and_eq_false_iff, Bool.or_eq_false_iff, decide_eq_false_iff_not, beq_eq_false_iff_ne]
  omega

/-- R67: an unassigned opcode decodes to nothing, whatever the immediate. -/
theorem decode_unassigned {w : Slot} (hop : 0x0B ≤ (slotOp w).toNat) :
    decode w = .error (.unassignedOpcode (slotOp w)) := by
  unfold decode
  dsimp only
  split
  case h_12 => rfl
  all_goals omega

/-- R68: an opcode with no payload decodes to nothing beside a stray immediate. -/
theorem decode_stray {w : Slot} (hlo : 0x02 ≤ (slotOp w).toNat) (hhi : (slotOp w).toNat ≤ 0x0A)
    (himm : slotImm w ≠ 0#64) : decode w = .error (.nonzeroImmediate (slotOp w) (slotImm w)) := by
  unfold decode
  dsimp only
  interval_cases (slotOp w).toNat <;> exact noPayload_nonzero _ himm _

/-- R67, R68: an illegal slot decodes to nothing. -/
theorem decode_illegal {w : Slot} (h : IllegalSlot w) : ∃ e, decode w = .error e := by
  rcases h with hop | ⟨hlo, hhi, himm⟩
  · exact ⟨_, decode_unassigned hop⟩
  · exact ⟨_, decode_stray hlo hhi himm⟩

/-- R66: decoding undoes encoding, row by row of the opcode map. -/
@[simp] theorem decode_encode (i : Instr) : decode (encode i) = .ok i := by
  obtain ⟨hop, himm⟩ := Laws.EncodingLegal.fields i
  unfold decode
  rw [hop, himm]
  cases i <;> rfl

/-- R62: every opcode from 0x02 to 0x0A is that of an instruction with no payload. -/
theorem exists_plain_opcode : ∀ op : Byte, 0x02 ≤ op.toNat → op.toNat ≤ 0x0A →
    ∃ i ∈ Machine.plainInstrs, opcode i = op ∧ immediate i = 0#64 := by
  decide

/-- R69: a slot that the check passes is the slot of an instruction. -/
theorem wellFormed_is_encoding {w : Slot} (h : Slot.wellFormed w = true) : ∃ i, w = encode i := by
  have hlegal : ¬ IllegalSlot w := by simp [← wellFormed_eq_false_iff, h]
  rw [← mkSlot_fields w]
  rcases Nat.lt_or_ge (slotOp w).toNat 0x02 with hpush | hplain
  · obtain hop | hop : slotOp w = 0x00#8 ∨ slotOp w = 0x01#8 := by bv_omega
    · exact ⟨.pushInteger (slotImm w), by rw [hop]; rfl⟩
    · exact ⟨.pushFloat (slotImm w), by rw [hop]; rfl⟩
  · have hhi : (slotOp w).toNat ≤ 0x0A := Nat.le_of_lt_succ (Nat.lt_of_not_le fun hop => hlegal (.inl hop))
    have himm : slotImm w = 0#64 := by_contra fun hne => hlegal (.inr ⟨hplain, hhi, hne⟩)
    obtain ⟨i, -, hop, hi⟩ := exists_plain_opcode _ hplain hhi
    exact ⟨i, by rw [encode, hop, hi, himm]⟩

/-- R69: a slot is that of an instruction and decodes to it, or it is illegal and decodes to nothing. -/
theorem decode_cases (w : Slot) :
    (Slot.wellFormed w = true ∧ ∃ i, decode w = .ok i ∧ w = encode i) ∨
    (Slot.wellFormed w = false ∧ (∃ e, decode w = .error e) ∧ IllegalSlot w) := by
  cases h : Slot.wellFormed w with
  | true =>
    obtain ⟨i, rfl⟩ := wellFormed_is_encoding h
    exact .inl ⟨rfl, i, decode_encode i, rfl⟩
  | false =>
    have hill := (wellFormed_eq_false_iff w).mp h
    exact .inr ⟨rfl, decode_illegal hill, hill⟩

/-- R66: a slot decodes only to the instruction it is the slot of. -/
theorem eq_encode_of_decode_ok {w : Slot} {i : Instr} (h : decode w = .ok i) : w = encode i := by
  rcases decode_cases w with ⟨-, j, hj, hw⟩ | ⟨-, ⟨e, he⟩, -⟩
  · obtain rfl : j = i := Except.ok.inj (hj.symm.trans h)
    exact hw
  · cases he.symm.trans h

/-- R66 to R68: the slots that decode to nothing are the illegal ones. -/
theorem decode_error_iff (w : Slot) : (∃ e, decode w = .error e) ↔ IllegalSlot w := by
  refine ⟨fun ⟨e, he⟩ => ?_, decode_illegal⟩
  rcases decode_cases w with ⟨-, i, hi, -⟩ | ⟨-, -, hill⟩
  · cases hi.symm.trans he
  · exact hill

end Sys2Proof

namespace Sys2Proof.Claims

/-- Settles O1: the encoding column is the definition's, and the rest is that encoding reaches every slot but the illegal
ones, that decoding undoes it, and that illegal slots decode to nothing. -/
theorem decodeEncodeAgree : Obligations.DecodeEncodeAgree := by
  unfold Obligations.DecodeEncodeAgree
  exact ⟨fun _ => rfl, fun _ => rfl, rfl, rfl, rfl, rfl, rfl, rfl, rfl, rfl, rfl,
    decode_encode, fun _ _ => eq_encode_of_decode_ok, decode_error_iff⟩

/-- Settles O2: a slot is put together again from its two fields, and each field reads the slot's bits where R61 puts it. -/
theorem slotFieldsAreWholeSlot : Obligations.SlotFieldsAreWholeSlot := by
  unfold Obligations.SlotFieldsAreWholeSlot
  exact fun w => ⟨slot_toNat w, fun _ => slotImm_getLsbD w, fun _ => slotOp_getLsbD w⟩

/-- Settles O3: the check and the decoder agree, slot by slot, with the two ways R69 leaves. -/
theorem everySlotLegalOrIllegal : Obligations.EverySlotLegalOrIllegal := by
  unfold Obligations.EverySlotLegalOrIllegal
  exact decode_cases

end Sys2Proof.Claims
end

section
/-! What an instruction and a step of the core can end in, for the rules of execution (R81 to R87): `PopTwo` on two cells and
on fewer, the pushes and the ALU instructions as their operations, and the halting step as a halt of the state whose reads of
STATUS were answered. -/

namespace Sys2Proof.Machine

/-- R86: with fewer than two cells `PopTwo` raises. -/
theorem popTwo_short {s : State} (h : depth s < 2) : popTwo s = .error .outOfBounds := by
  unfold popTwo
  split
  next a b rest hs => simp [depth, hs] at h
  next => rfl

/-- R86: on two cells or more `PopTwo` answers the top, the cell under it, and the stack without them. -/
theorem popTwo_two {s : State} {a b : Cell} {rest : List Cell} (hs : s.stack = a :: b :: rest) :
    popTwo s = .ok (a, b, { s with stack := rest }) := by simp only [popTwo, hs]

/-- R24: the top of the stack is the cell numbered `depth - 1`. -/
theorem cellAt_top {s : State} {a : Cell} {rest : List Cell} (hs : s.stack = a :: rest) :
    cellAt s (depth s - 1) = some a := by simp [cellAt, depth, hs]

/-- R24: the cell under the top is the one numbered `depth - 2`. -/
theorem cellAt_second {s : State} {a b : Cell} {rest : List Cell} (hs : s.stack = a :: b :: rest) :
    cellAt s (depth s - 2) = some b := by simp [cellAt, depth, hs]

/-- R84: an instruction that starts with the core not HALTED and leaves it HALTED is a halt of the state it found. -/
theorem exec_halted {i : Instr} {s t : State} (hrun : s.runState ≠ .halted) (h : exec i s = .next t)
    (ht : t.runState = .halted) : ∃ e, t = halt e s := by
  rcases exec_cases i s with ⟨cells, -, -, -, hex⟩ | ⟨e, -, hex⟩
  · obtain rfl := Host.Outcome.next.inj (hex.symm.trans h)
    exact absurd ht hrun
  · exact ⟨e, Host.Outcome.next.inj (h.symm.trans hex)⟩

/-- R81, R84: a step of the loop that leaves the core HALTED is a halt of the state it found, whether it was the slot or the
instruction that raised. -/
theorem coreStep_halted {s t : State} (hrun : s.runState ≠ .halted) (h : coreStep s = .next t)
    (ht : t.runState = .halted) : ∃ e, t = halt e s := by
  rcases coreStep_cases s with ⟨-, hend⟩ | ⟨-, hout⟩ | ⟨-, w, -, ⟨e, -, hill⟩ | ⟨i, -, hex⟩⟩
  · obtain rfl := Host.Outcome.next.inj (hend.symm.trans h)
    cases ht
  · cases hout.symm.trans h
  · exact ⟨.illegalInstruction, Host.Outcome.next.inj (h.symm.trans hill)⟩
  · exact exec_halted hrun (hex.symm.trans h) ht

/-- R84, R157: a step that halts a run answers the waiting reads of STATUS, then halts, and does nothing else. -/
theorem step_halts_run {s t : State} (hrun : s.runState = .running) (h : step s = .next t)
    (ht : t.runState = .halted) : ∃ e, t = halt e (answerStatusReads s) :=
  coreStep_halted (by simp [hrun]) ((step_running hrun).symm.trans h) ht

end Sys2Proof.Machine

namespace Sys2Proof.Claims

open Sys2Proof.Machine

/-- The state after a commit, written out, is the model's own. -/
theorem advance_eq_committed (cells : List Cell) (s : State) :
    advance { s with stack := cells } = committed cells s := rfl

/-- The state after a halt, written out, is the model's own. -/
theorem halt_eq_haltedWith (e : ErrKind) (s : State) : halt e s = haltedWith e s := rfl

/-- R84: an instruction whose effect raises ends in the halted state. -/
theorem exec_of_effect_error {i : Instr} {s : State} {e : ErrKind} (h : effect i s = .error e) :
    exec i s = .next (haltedWith e s) := by
  rw [exec_eq_retire, h, retire_error, halt_eq_haltedWith]

/-- R83: an instruction whose effect leaves the cells `cells` commits them. -/
theorem exec_of_effect_ok {i : Instr} {s : State} {cells : List Cell} (h : effect i s = .ok { s with stack := cells }) :
    exec i s = .next (committed cells s) := by
  rw [exec_eq_retire, h, retire_ok, advance_eq_committed]

/-- R85: off the capacity, an instruction that pushes `v` commits it as the new top. -/
theorem exec_push_room {i : Instr} {v : Cell} {s : State} (hi : effect i s = push v s)
    (h : capacity s.params.stackCap ≠ some (depth s)) : exec i s = .next (committed (v :: s.stack) s) :=
  exec_of_effect_ok (hi.trans (push_room v (Bool.eq_false_iff.mpr fun hc => h ((capReached_iff _ _).mp hc))))

/-- R85: at the capacity, an instruction that pushes halts with `OutOfMemory`. -/
theorem exec_push_full {i : Instr} {v : Cell} {s : State} (hi : effect i s = push v s)
    (h : capacity s.params.stackCap = some (depth s)) : exec i s = .next (haltedWith .outOfMemory s) :=
  exec_of_effect_error (hi.trans (push_full v ((capReached_iff _ _).mpr h)))

/-- R87: each of the eight ALU instructions is the binary frame of some operation. -/
theorem IsAlu.effect_eq_binOp {i : Instr} (hi : IsAlu i) (s : State) : ∃ f, effect i s = binOp f s := by
  rcases hi with rfl | rfl | rfl | rfl | rfl | rfl | rfl | rfl
  · exact ⟨addIntOp s.params.intOverflow, rfl⟩
  · exact ⟨subIntOp s.params.intOverflow, rfl⟩
  · exact ⟨mulIntOp s.params.intOverflow, rfl⟩
  · exact ⟨divIntOp s.params.intOverflow, rfl⟩
  · exact ⟨addFloatOp, rfl⟩
  · exact ⟨subFloatOp, rfl⟩
  · exact ⟨mulFloatOp, rfl⟩
  · exact ⟨divFloatOp, rfl⟩

/-- R86, R87: an ALU instruction that finds fewer than two cells halts with `OutOfBounds`. -/
theorem exec_alu_short {i : Instr} {s : State} (hi : IsAlu i) (h : depth s < 2) :
    exec i s = .next (haltedWith .outOfBounds s) := by
  obtain ⟨f, hf⟩ := hi.effect_eq_binOp s
  exact exec_of_effect_error (hf.trans (binOp_short f h))

/-- Settles O15: the halting step is a halt of the state whose reads of STATUS were answered, and neither of the two writes
a cell, pc, the code or the parameters. -/
theorem errorsArePrecise : Obligations.ErrorsArePrecise := by
  unfold Obligations.ErrorsArePrecise
  intro s t hrun hstep ht
  obtain ⟨e, rfl⟩ := step_halts_run hrun hstep ht
  simp

/-- Settles O18: push-integer is `Push` of its immediate, which the capacity alone can stop. -/
theorem pushIntegerRule : Obligations.PushIntegerRule := by
  unfold Obligations.PushIntegerRule
  exact ⟨fun v => decode_encode (.pushInteger v), fun _ _ => exec_push_room rfl,
    fun _ v => exec_push_full (v := v) rfl⟩

/-- Settles O36: `PopTwo` raises on fewer than two cells, and every ALU instruction takes its operands by it. -/
theorem aluNeedsTwoCells : Obligations.AluNeedsTwoCells := by
  unfold Obligations.AluNeedsTwoCells
  exact ⟨fun _ => popTwo_short, fun _ _ _ _ hs => ⟨popTwo_two hs, cellAt_top hs, cellAt_second hs⟩,
    fun _ _ => exec_alu_short⟩

end Sys2Proof.Claims
end

section
/-! The stack instructions (R100 to R102): the slot of an instruction with no payload, and `pop` on any stack. -/

namespace Sys2Proof.Claims

open Sys2Proof.Machine

/-- R62, R64, R68: an instruction with no payload is encoded by its opcode beside a zero immediate and by no other slot of
that opcode. -/
theorem encodedAs_opcode {i : Instr} (himm : immediate i = 0#64) (hlo : 0x02 ≤ (opcode i).toNat)
    (hhi : (opcode i).toNat ≤ 0x0A) : EncodedAs i (opcode i) := by
  constructor
  · have hdec : decode (mkSlot (opcode i) (immediate i)) = .ok i := decode_encode i
    rwa [himm] at hdec
  · intro imm hne
    have hstray := decode_stray (w := mkSlot (opcode i) imm)
    rw [slotOp_mkSlot, slotImm_mkSlot] at hstray
    exact hstray hlo hhi hne

/-- R102: on every stack pop commits the cells under the top; an empty stack has none and stays empty. -/
theorem exec_pop (s : State) : exec .pop s = .next (committed s.stack.tail s) := exec_of_effect_ok rfl

/-- Settles O19: push-float is `Push` of its pattern, which is also what push-integer does with it. -/
theorem pushFloatRule : Obligations.PushFloatRule := by
  unfold Obligations.PushFloatRule
  exact ⟨fun x => decode_encode (.pushFloat x), fun _ _ => exec_push_room rfl,
    fun _ x => exec_push_full (v := x) rfl, fun _ _ => rfl⟩

/-- Settles O20: pop commits the tail of the stack, which is the rest under a top cell and empty on an empty stack. -/
theorem popRule : Obligations.PopRule := by
  unfold Obligations.PopRule
  refine ⟨encodedAs_opcode (i := .pop) rfl (by decide) (by decide), ?cell, ?empty⟩
  case cell =>
    intro s a rest hs
    rw [exec_pop, hs, List.tail_cons]
  case empty =>
    intro s hs
    rw [exec_pop, hs, List.tail_nil]

end Sys2Proof.Claims
end

section
/-! The integer unit (R110 to R116): when a result fits, what `IntResult` answers, the ALU instructions in terms of their
operation on the two top cells, and the quotient of two cells, which fits but for -2^63 / -1. -/

namespace Sys2Proof.Machine

/-- R10: the model's division by magnitudes is the integers' division truncating toward zero. -/
theorem tdiv_eq_int_tdiv (x y : Int) : tdiv x y = x.tdiv y := by
  unfold tdiv
  cases x with
  | ofNat m =>
    cases y with
    | ofNat n => rfl
    | negSucc n => simp [Int.negSucc_lt_zero, Int.tdiv]
  | negSucc m => cases y <;> simp [Int.negSucc_lt_zero, Int.tdiv]

/-- R175: div-int tests the divisor before it divides. -/
theorem divIntOp_zero (o : Config.IntOverflow) {a : Cell} (b : Cell) (ha : a.toInt = 0) :
    divIntOp o a b = .error .divByZero := if_pos ha

/-- R115: by any other divisor div-int gives `IntResult` of the truncated quotient. -/
theorem divIntOp_nonzero (o : Config.IntOverflow) {a : Cell} (b : Cell) (ha : a.toInt ≠ 0) :
    divIntOp o a b = intResult o (b.toInt.tdiv a.toInt) := by
  rw [divIntOp, if_neg ha, tdiv_eq_int_tdiv]

/-- R111: under `WRAP` the answer is the pattern of the result, whether it fits or not. -/
theorem intResult_wrap (n : Int) : intResult .wrap n = .ok (bits64 n) := by
  unfold intResult
  cases fits64 n <;> rfl

end Sys2Proof.Machine

namespace Sys2Proof.Claims

open Sys2Proof.Machine

/-- R10: the model's test is the claims' predicate. -/
theorem fits64_iff (n : Int) : fits64 n = true ↔ Fits n := by
  simp only [fits64, Fits, Bool.and_eq_true, decide_eq_true_eq]
  omega

/-- R7: what a cell reads as fits. -/
theorem fits_toInt (v : Cell) : Fits v.toInt := ⟨v.le_toInt, v.toInt_lt⟩

/-- R7: the pattern of an integer that fits reads as that integer. -/
theorem toInt_bits64 {n : Int} (h : Fits n) : (bits64 n).toInt = n :=
  BitVec.toInt_ofInt_eq_self (by decide) h.1 h.2

/-- R7: the pattern of any integer reads as that integer modulo 2^64. -/
theorem sameMod64_bits64 (n : Int) : SameMod64 (bits64 n).toInt n := by
  obtain ⟨k, hk⟩ : ((2 ^ 64 : Nat) : Int) ∣ n.bmod (2 ^ 64) - n := Int.dvd_bmod_sub_self
  exact ⟨k, by rw [BitVec.toInt_ofInt, hk, Int.mul_comm]; rfl⟩

/-- R111: a result that fits is its pattern under both settings. -/
theorem intResult_of_fits (o : Config.IntOverflow) {n : Int} (h : Fits n) : intResult o n = .ok (bits64 n) := by
  simp only [intResult, (fits64_iff n).mpr h]

/-- R111: under `FAULT` a result that does not fit raises. -/
theorem intResult_fault {n : Int} (h : ¬ Fits n) : intResult .fault n = .error .intOverflow := by
  have hn : fits64 n = false := Bool.eq_false_iff.mpr (mt (fits64_iff n).mp h)
  simp only [intResult, hn]

/-- R115: the quotient of two cells is itself what some cell reads as, but for -2^63 / -1. -/
theorem fits_tdiv {a b : Cell} (h : ¬ (b.toInt = -(2 ^ 63) ∧ a.toInt = -1)) : Fits (b.toInt.tdiv a.toInt) := by
  have hne : b ≠ BitVec.intMin 64 ∨ a ≠ -1#64 := by
    by_contra hcorner
    push Not at hcorner
    obtain ⟨rfl, rfl⟩ := hcorner
    exact h (by decide)
  rw [← BitVec.toInt_sdiv_of_ne_or_ne b a hne]
  exact fits_toInt _

/-- R115: -2^63 / -1 is 2^63, the one quotient that does not fit. -/
theorem not_fits_tdiv_corner : ¬ Fits ((-(2 ^ 63) : Int).tdiv (-1)) := by
  unfold Fits
  decide

/-- R62, R68: an ALU instruction has no payload. -/
theorem IsAlu.encodedAs {i : Instr} (hi : IsAlu i) : EncodedAs i (opcode i) := by
  have hrow : immediate i = 0#64 ∧ 0x02 ≤ (opcode i).toNat ∧ (opcode i).toNat ≤ 0x0A := by
    rcases hi with rfl | rfl | rfl | rfl | rfl | rfl | rfl | rfl <;> decide
  obtain ⟨himm, hlo, hhi⟩ := hrow
  exact encodedAs_opcode himm hlo hhi

section BinaryFrame
variable {i : Instr} {f : Cell → Cell → Except ErrKind Cell} {s : State} {a b : Cell} {rest : List Cell}

/-- R83, R87: an ALU instruction whose operation answers `r` commits `r` in the place of its operands. -/
theorem exec_binOp_ok {r : Cell} (hi : effect i s = binOp f s) (hs : s.stack = a :: b :: rest)
    (hc : capHolds s.params.stackCap (depth s) = true) (hf : f a b = .ok r) :
    exec i s = .next (committed (r :: rest) s) :=
  exec_of_effect_ok (hi.trans (binOp_result hs hc hf))

/-- R84, R87: an ALU instruction whose operation raises halts with the same error. -/
theorem exec_binOp_error {e : ErrKind} (hi : effect i s = binOp f s) (hs : s.stack = a :: b :: rest)
    (hf : f a b = .error e) : exec i s = .next (haltedWith e s) :=
  exec_of_effect_error (hi.trans (binOp_raises hs hf))

end BinaryFrame

/-- R110, R111: an ALU instruction whose operation is `IntResult` of the exact `f b a` keeps the rule that add-int, sub-int
and mul-int share. -/
theorem integerRule_of_intResult {i : Instr} {f : Int → Int → Int} (hi : IsAlu i)
    (heff : ∀ s, effect i s = binOp (fun a b => intResult s.params.intOverflow (f b.toInt a.toInt)) s) :
    IntegerRule i (opcode i) f := by
  refine ⟨hi.encodedAs, fun s => exec_alu_short hi, fun s a b rest hs hc => ⟨?fits, ?wraps, ?faults⟩⟩
  case fits =>
    intro hn
    exact ⟨_, exec_binOp_ok (heff s) hs hc (intResult_of_fits _ hn), toInt_bits64 hn⟩
  case wraps =>
    intro _ ho
    exact ⟨_, exec_binOp_ok (heff s) hs hc (ho ▸ intResult_wrap _), sameMod64_bits64 _⟩
  case faults =>
    intro hn ho
    exact exec_binOp_error (heff s) hs (ho ▸ intResult_fault hn)

/-- Settles O21: a result that fits is read back from its pattern, one that does not is its pattern modulo 2^64 or an
error; and of the quotients of two cells -2^63 / -1 alone is not a cell's reading. -/
theorem intResultRule : Obligations.IntResultRule := by
  unfold Obligations.IntResultRule
  refine ⟨fun o _ hn => ⟨_, intResult_of_fits o hn, toInt_bits64 hn⟩,
    fun n _ => ⟨_, intResult_wrap n, sameMod64_bits64 n⟩, fun _ => intResult_fault, rfl,
    ⟨1#64, 0x7FFFFFFFFFFFFFFF#64, ?sum⟩, ⟨1#64, 0x8000000000000000#64, ?difference⟩,
    ⟨2#64, 0x4000000000000000#64, ?product⟩, ?quotient, rfl⟩
  case sum => unfold Fits; decide
  case difference => unfold Fits; decide
  case product => unfold Fits; decide
  case quotient =>
    intro a b _
    refine ⟨not_imp_comm.mp fits_tdiv, ?_⟩
    rintro ⟨hb, ha⟩
    rw [hb, ha]
    exact not_fits_tdiv_corner

/-- Settles O22: the operation of add-int is `IntResult` of the sum. -/
theorem addIntRule : Obligations.AddIntRule :=
  integerRule_of_intResult (i := .addInt) (by simp [IsAlu]) fun _ => rfl

/-- Settles O23: the operation of sub-int is `IntResult` of the cell under the top less the top. -/
theorem subIntRule : Obligations.SubIntRule :=
  integerRule_of_intResult (i := .subInt) (by simp [IsAlu]) fun _ => rfl

/-- Settles O24: the operation of mul-int is `IntResult` of the product. -/
theorem mulIntRule : Obligations.MulIntRule :=
  integerRule_of_intResult (i := .mulInt) (by simp [IsAlu]) fun _ => rfl

/-- Settles O25: the operation of div-int tests the divisor, and else is `IntResult` of a quotient that fits but for
-2^63 / -1. -/
theorem divIntRule : Obligations.DivIntRule := by
  unfold Obligations.DivIntRule
  have hi : IsAlu .divInt := by simp [IsAlu]
  have heff : ∀ s, effect .divInt s = binOp (divIntOp s.params.intOverflow) s := fun _ => rfl
  refine ⟨hi.encodedAs, fun s => exec_alu_short hi, fun s a b rest hs hc => ⟨?zero, ?quotient, ?wraps, ?faults⟩⟩
  case zero =>
    intro ha
    exact exec_binOp_error (heff s) hs (divIntOp_zero _ b ha)
  case quotient =>
    intro ha hcorner
    have hn : Fits (b.toInt.tdiv a.toInt) := fits_tdiv hcorner
    exact ⟨_, exec_binOp_ok (heff s) hs hc ((divIntOp_nonzero _ b ha).trans (intResult_of_fits _ hn)), toInt_bits64 hn⟩
  case wraps =>
    intro hb ha ho
    refine exec_binOp_ok (heff s) hs hc ?_
    rw [divIntOp_nonzero _ b (by omega), ho, intResult_wrap, hb, ha]
    decide
  case faults =>
    intro hb ha ho
    refine exec_binOp_error (heff s) hs ?_
    rw [divIntOp_nonzero _ b (by omega), ho, hb, ha]
    exact intResult_fault not_fits_tdiv_corner

end Sys2Proof.Claims
end

section
/-! The zero test of div-float (R139): the readings that compare equal to 0.0, the two patterns that read so, and the
operation of div-float off them. -/

namespace Sys2Proof.Machine

/-- R9: the two zeros read as the significand 0 in the lowest exponent. -/
theorem f64_zeroBits (neg : Bool) : f64 (zeroBits neg) = .finite neg 0 0 := by
  cases neg <;> decide

/-- R9: significand 0 is read from a zero alone: a normal number has its hidden bit, a subnormal a fraction. -/
theorem eq_zeroBits_of_f64 {a : Cell} {neg : Bool} {exp : Nat} (h : f64 a = .finite neg 0 exp) : a = zeroBits neg := by
  obtain ⟨-, hnormal, -, hval⟩ := f64_finite a neg 0 exp h
  have hexp : exp = 0 := by omega
  apply BitVec.eq_of_toNat_eq
  rw [zeroBits_toNat, hval, hexp, Nat.zero_mul, Nat.add_zero]

/-- R139: the zero test reads the significand of a finite value, and no other reading passes it. -/
theorem equalsZero_iff_f64 (a : Cell) : equalsZero a = true ↔ ∃ neg exp, f64 a = .finite neg 0 exp := by
  unfold equalsZero
  cases f64 a <;> simp

/-- R139: the zero test is true of the two zeros and of nothing else. -/
theorem equalsZero_iff_zeroBits (a : Cell) : equalsZero a = true ↔ ∃ neg, a = zeroBits neg := by
  rw [equalsZero_iff_f64]
  constructor
  · rintro ⟨neg, exp, h⟩
    exact ⟨neg, eq_zeroBits_of_f64 h⟩
  · rintro ⟨neg, rfl⟩
    exact ⟨neg, 0, f64_zeroBits neg⟩

/-- R138: off the zeros div-float answers the IEEE quotient. -/
theorem divFloatOp_nonzero {a : Cell} (b : Cell) (h : equalsZero a = false) :
    divFloatOp a b = .ok (floatResult .div a b (fdiv (f64 b) (f64 a))) := by
  simp only [divFloatOp, h]

end Sys2Proof.Machine

namespace Sys2Proof.Claims

open Sys2Proof.Machine

/-- Settles O33: a pattern passes the zero test when it reads as significand 0, which the two zeros alone do; off them the
operation of div-float answers a quotient. -/
theorem zeroTestHasTwoPatterns : Obligations.ZeroTestHasTwoPatterns := by
  unfold Obligations.ZeroTestHasTwoPatterns
  refine ⟨?patterns, ?classes, ?divides⟩
  case patterns => exact fun a => (equalsZero_iff_zeroBits a).trans Bool.exists_bool
  case classes =>
    intro a hclass
    rw [Bool.eq_false_iff, Ne, equalsZero_iff_f64]
    rintro ⟨neg, exp, hzero⟩
    rcases hclass with hnan | ⟨m, hinf⟩ | ⟨m, sig, hsub, hpos⟩
    · cases hnan.symm.trans hzero
    · cases hinf.symm.trans hzero
    · cases hsub.symm.trans hzero
      exact Nat.lt_irrefl 0 hpos
  case divides =>
    exact fun s a b rest hs hc ha => ⟨_, exec_binOp_ok (i := .divFloat) rfl hs hc (divFloatOp_nonzero b ha)⟩

end Sys2Proof.Claims
end

section
/-! The host's commands (R150 to R158): what a step does with the commands waiting, in a run and outside one; the commands
that only answer; and the stack position of a signed index (R155). -/

namespace Sys2Proof.Machine

/-- R157: READ_REG 0 is the one command answered during a run. -/
theorem isStatusRead_iff (c : Command) : isStatusRead c = true ↔ c = .readReg 0#64 := by
  cases c <;> simp [isStatusRead]

/-- R83, R84: an instruction takes no command off the waiting list and no reply back. -/
theorem exec_keeps_host {i : Instr} {s t : State} (h : exec i s = .next t) :
    t.pending = s.pending ∧ ∃ more, t.replies = s.replies ++ more := by
  rcases exec_cases i s with ⟨cells, -, -, -, hex⟩ | ⟨e, -, hex⟩
  · obtain rfl := Host.Outcome.next.inj (hex.symm.trans h)
    exact ⟨rfl, [], (List.append_nil _).symm⟩
  · obtain rfl := Host.Outcome.next.inj (hex.symm.trans h)
    exact ⟨rfl, _, rfl⟩

/-- R81, R157: neither does a step of the loop: the end of a run adds START's reply, and nothing else touches the lists. -/
theorem coreStep_keeps_host {s t : State} (h : coreStep s = .next t) :
    t.pending = s.pending ∧ ∃ more, t.replies = s.replies ++ more := by
  rcases coreStep_cases s with ⟨-, hend⟩ | ⟨-, hout⟩ | ⟨-, w, -, ⟨e, -, hill⟩ | ⟨i, -, hex⟩⟩
  · obtain rfl := Host.Outcome.next.inj (hend.symm.trans h)
    exact ⟨rfl, _, rfl⟩
  · cases hout.symm.trans h
  · obtain rfl := Host.Outcome.next.inj (hill.symm.trans h)
    exact ⟨rfl, _, rfl⟩
  · exact exec_keeps_host (hex.symm.trans h)

/-- R157: the commands that wait after a step of a run are those that waited before it, but for the reads of STATUS. -/
theorem mem_pending_step_running {s t : State} (hrun : s.runState = .running) (h : step s = .next t) (c : Command) :
    c ∈ t.pending ↔ c ∈ s.pending ∧ c ≠ .readReg 0#64 := by
  obtain ⟨hpend, -⟩ := coreStep_keeps_host ((step_running hrun).symm.trans h)
  rw [hpend, answerStatusReads_pending, List.mem_filter, Bool.not_eq_true', ← Bool.not_eq_true, isStatusRead_iff]

/-- R156, R157: a read of STATUS that waits when a step of a run begins has its reply when the step ends. -/
theorem status_reply_mem_step_running {s t : State} (hrun : s.runState = .running) (h : step s = .next t)
    (hmem : .readReg 0#64 ∈ s.pending) :
    { command := .readReg 0#64, response := .ok, value := some (statusWord s) } ∈ t.replies := by
  obtain ⟨-, more, hreplies⟩ := coreStep_keeps_host ((step_running hrun).symm.trans h)
  rw [hreplies, answerStatusReads_replies]
  exact List.mem_append_left _ (List.mem_append_right _
    (List.mem_map.mpr ⟨_, List.mem_filter.mpr ⟨hmem, rfl⟩, rfl⟩))

/-- R28, R29: during a run `STATUS` reads RUNNING, with no error. -/
theorem statusWord_running {s : State} (hs : s.Inv) (hrun : s.runState = .running) : statusWord s = 2#64 := by
  have herr : s.err = none := by
    have hno : s.err.isSome ≠ true := fun hsome => by simp [hs.err_iff.mp hsome] at hrun
    simpa using hno
  rw [statusWord_of_err_none herr, hrun]
  rfl

/-- R151: a LOAD longer than `CODE_MAX` is answered `OutOfMemory` and changes nothing. -/
theorem perform_load_refused {slots : List Slot} {s : State} (h : s.params.codeMax < slots.length) :
    perform (.load slots) s = reply (.load slots) (.error .outOfMemory) none s :=
  if_neg (by simpa [Params.accepts] using h)

/-- R153: the cell an accessor's signed index names, if it names a live one. -/
def readValue (index : BitVec 64) (s : State) : Option Cell := (resolve (depth s) index).bind (cellAt s)

/-- R153, R176: the response that goes with an accessor's value: a missing one is `OutOfBounds`. -/
def readResponse : Option Cell → Response
  | some _ => .ok
  | none => .error .outOfBounds

/-- R153, R154, R176: each accessor answers the cell its index names, and changes nothing. -/
theorem perform_accessor {c : Command} {index : BitVec 64} (hc : c = .readInt index ∨ c = .readFloat index) (s : State) :
    perform c s = reply c (readResponse (readValue index s)) (readValue index s) s := by
  have hanswer : perform c s = answerRead c index s := by rcases hc with rfl | rfl <;> rfl
  rw [hanswer, answerRead, ← readValue]
  cases readValue index s <;> rfl

/-- R150, R158: every command but LOAD and START only answers. -/
theorem perform_only_replies {c : Command} (hstart : c ≠ .start) (hload : ∀ slots, c ≠ .load slots) (s : State) :
    ∃ r v, perform c s = reply c r v s := by
  cases c with
  | load slots => exact absurd rfl (hload slots)
  | start => exact absurd rfl hstart
  | readInt index => exact ⟨_, _, perform_accessor (.inl rfl) s⟩
  | readFloat index => exact ⟨_, _, perform_accessor (.inr rfl) s⟩
  | readReg r => exact ⟨_, _, rfl⟩

/-- R158: outside a run, a run of steps over commands none of which is a LOAD or a START answers them and changes nothing
else. -/
theorem run_only_replies {ds rest : List Command} {s : State} (k : Nat) (hrun : s.runState ≠ .running)
    (hds : ∀ d ∈ ds, d ≠ .start ∧ ∀ slots, d ≠ .load slots) (hpend : s.pending = ds ++ rest) :
    ∃ replies, Host.Core.run core (ds.length + k) s =
      Host.Core.run core k { s with pending := rest, replies := s.replies ++ replies } := by
  induction ds generalizing s with
  | nil => exact ⟨[], by rw [List.append_nil, ← List.nil_append rest, ← hpend, List.length_nil, Nat.zero_add]⟩
  | cons d ds ih =>
    obtain ⟨⟨hstart, hload⟩, htail⟩ := List.forall_mem_cons.mp hds
    obtain ⟨r, v, hd⟩ := perform_only_replies hstart hload { s with pending := ds ++ rest }
    obtain ⟨replies, hih⟩ := ih (s := reply d r v { s with pending := ds ++ rest }) hrun htail rfl
    refine ⟨{ command := d, response := r, value := v } :: replies, ?_⟩
    rw [List.length_cons, Nat.add_right_comm, run_succ _ ((step_performs_oldest hrun hpend).trans (congrArg _ hd)), hih,
      reply_replies, List.append_assoc]
    rfl

/-- R30: a number of 4 or more is no register's. -/
theorem registerValue_reserved (s : State) {r : BitVec 64} (h : 4 ≤ r.toNat) : registerValue s r = 0#64 := by
  unfold registerValue
  split
  case h_5 => rfl
  all_goals omega

/-- R155: an index names position `p` when `p` is live and is the index, or the index counted back from the top. -/
theorem resolve_eq_some_iff {d p : Nat} {index : BitVec 64} :
    resolve d index = some p ↔
      p < d ∧ ((0 ≤ index.toInt ∧ (p : Int) = index.toInt) ∨ (index.toInt < 0 ∧ (p : Int) = d + index.toInt)) := by
  unfold resolve
  generalize index.toInt = i
  dsimp only
  split_ifs <;> simp only [Option.some.injEq, false_iff] <;> omega

/-- R155: `OutOfBounds` is answered off the range from `-depth` to `depth - 1`. -/
theorem resolve_eq_none_iff {d : Nat} {index : BitVec 64} :
    resolve d index = none ↔ index.toInt < -d ∨ (d : Int) ≤ index.toInt := by
  unfold resolve
  generalize index.toInt = i
  dsimp only
  split_ifs <;> simp only [true_iff, false_iff] <;> omega

/-- R24, R155: an index that resolves names a live cell. -/
theorem cellAt_of_resolve {s : State} {p : Nat} {index : BitVec 64} (h : resolve (depth s) index = some p) :
    ∃ v, cellAt s p = some v :=
  ⟨_, List.getElem?_eq_getElem (by simpa [depth] using (resolve_eq_some_iff.mp h).1)⟩

end Sys2Proof.Machine

namespace Sys2Proof.Claims

open Sys2Proof.Machine

/-- The state after a command that only answers, written out, is the model's own. -/
theorem reply_eq_answered (c : Command) (r : Response) (v : Option Cell) (rest : List Command) (s : State) :
    reply c r v { s with pending := rest } = answered c r v rest s := rfl

/-- R150, R157: outside a run, the step that performs a command that only answers. -/
theorem step_answers {s : State} {c : Command} {r : Response} {v : Option Cell} {rest : List Command}
    (hrun : s.runState ≠ .running) (hpend : s.pending = c :: rest)
    (h : perform c { s with pending := rest } = reply c r v { s with pending := rest }) :
    step s = .next (answered c r v rest s) := by
  rw [step_performs_oldest hrun hpend, h, reply_eq_answered]

/-- R153, R154: outside a run, the step that performs an accessor. -/
theorem step_accessor {s : State} {c : Command} {index : BitVec 64} {rest : List Command}
    (hc : c = .readInt index ∨ c = .readFloat index) (hrun : s.runState ≠ .running) (hpend : s.pending = c :: rest) :
    step s = .next (answered c (readResponse (readValue index s)) (readValue index s) rest s) :=
  step_answers hrun hpend (perform_accessor hc _)

/-- R7: the 64-bit index of a position no further than `d < 2^63` from 0, or of the one before `-d`, reads as itself. -/
theorem toInt_index {d : Nat} {n : Int} (hd : d < 2 ^ 63) (hlo : -(d + 1) ≤ n) (hhi : n ≤ d) :
    (BitVec.ofInt 64 n).toInt = n := toInt_bits64 ⟨by omega, by omega⟩

/-- Settles O44: an accepted LOAD replaces the state, a longer one only answers, and during a run a LOAD waits like every
command but the read of STATUS. -/
theorem loadRule : Obligations.LoadRule := by
  unfold Obligations.LoadRule
  refine ⟨fun s slots rest => step_load_accepted, fun s slots rest hrun hpend hlen => ⟨?refused, rfl⟩, ?held⟩
  case refused => exact step_answers hrun hpend (perform_load_refused hlen)
  case held =>
    intro s t slots hrun hmem hstep
    exact (mem_pending_step_running hrun hstep _).mpr ⟨hmem, Command.noConfusion⟩

/-- Settles O46: the edges follow from when an index resolves and when it does not, each edge reading as itself. -/
theorem resolveRule : Obligations.ResolveRule := by
  unfold Obligations.ResolveRule
  refine ⟨fun d p index => resolve_eq_some_iff, fun d hd => ⟨?first, ?last⟩, fun d hd hlt => ⟨?lowest, ?above, ?below⟩,
    fun index => ?empty⟩
  case first => exact resolve_eq_some_iff.mpr ⟨hd, .inl (by decide)⟩
  case last =>
    have hval : (-1#64 : BitVec 64).toInt = -1 := by decide
    exact resolve_eq_some_iff.mpr (by omega)
  case lowest =>
    have hval := toInt_index (n := -d) hlt (by omega) (by omega)
    exact resolve_eq_some_iff.mpr (by omega)
  case above =>
    have hval := toInt_index (n := d) hlt (by omega) (by omega)
    exact resolve_eq_none_iff.mpr (by omega)
  case below =>
    have hval := toInt_index (n := -(d + 1)) hlt (by omega) (by omega)
    exact resolve_eq_none_iff.mpr (by omega)
  case empty => exact resolve_eq_none_iff.mpr (by omega)

/-- Settles O47: the step answers what the index names, which is a live cell where it resolves and nothing where it does
not; during a run a read of a cell waits. -/
theorem accessorRule : Obligations.AccessorRule := by
  unfold Obligations.AccessorRule
  intro s index c hc
  refine ⟨?live, ?outside, ?held⟩
  case live =>
    intro rest p hrun hpend hres
    obtain ⟨v, hv⟩ := cellAt_of_resolve hres
    have hval : readValue index s = some v := by rw [readValue, hres, Option.bind_some, hv]
    exact ⟨v, hv, by rw [step_accessor hc hrun hpend, hval, readResponse]⟩
  case outside =>
    intro rest hrun hpend hres
    have hval : readValue index s = none := by rw [readValue, hres, Option.bind_none]
    exact ⟨by rw [step_accessor hc hrun hpend, hval, readResponse], rfl⟩
  case held =>
    intro t hrun hmem hstep
    refine (mem_pending_step_running hrun hstep c).mpr ⟨hmem, ?_⟩
    rcases hc with rfl | rfl <;> exact Command.noConfusion

/-- Settles O48: the two reads and the commands between them only answer, so both reads find the same stack. -/
theorem readsRepeat : Obligations.ReadsRepeat := by
  unfold Obligations.ReadsRepeat
  intro s u index c between rest hrun hc hbetween hpend hu
  obtain ⟨s₁, hfirst, hu⟩ := run_succ_next hu
  obtain rfl := Host.Outcome.next.inj (hfirst.symm.trans (step_accessor hc hrun hpend))
  obtain ⟨replies, hmid⟩ := run_only_replies (rest := c :: rest) 1
    (s := answered c (readResponse (readValue index s)) (readValue index s) (between ++ c :: rest) s) hrun hbetween rfl
  obtain ⟨s₂, hlast, hu⟩ := run_succ_next (hmid.symm.trans hu)
  obtain rfl := Host.Outcome.next.inj (hlast.symm.trans (step_accessor hc hrun rfl))
  obtain rfl := Host.Outcome.next.inj hu
  exact ⟨_, _, replies, rfl, rfl, rfl⟩

/-- Settles O49: READ_REG only answers; during a run number 0 is answered in the step with the running `STATUS`, and
any other number waits. -/
theorem readRegRule : Obligations.ReadRegRule := by
  unfold Obligations.ReadRegRule
  refine ⟨fun s => ⟨rfl, rfl, rfl, rfl⟩, fun s r => registerValue_reserved s, ?outside, ?status, ?held⟩
  case outside =>
    intro s r rest hrun hpend
    exact step_answers hrun hpend rfl
  case status =>
    intro s t hs hrun hmem hstep
    refine ⟨fun hwait => ((mem_pending_step_running hrun hstep _).mp hwait).2 rfl, ?_⟩
    rw [← statusWord_running hs hrun]
    exact status_reply_mem_step_running hrun hstep hmem
  case held =>
    intro s t r hrun hlo _ hmem hstep
    refine (mem_pending_step_running hrun hstep _).mpr ⟨hmem, ?_⟩
    rintro ⟨⟩
    exact Nat.not_succ_le_zero 0 hlo

end Sys2Proof.Claims
end

section
/-! Leaving HALTED (R174): what each command does to a HALTED core, and what is observed of one. -/

namespace Sys2Proof.Machine

/-- R157: outside a run, with no command waiting, the core holds its state. -/
theorem step_idle {s : State} (hrun : s.runState ≠ .running) (hpend : s.pending = []) : step s = .next s := by
  rw [step_not_running hrun, hostStep, hpend]

/-- R152, R174: START finds a HALTED core not ready, and changes nothing. -/
theorem perform_start_halted {s : State} (h : s.runState = .halted) :
    perform .start s = reply .start .notReady none s := by
  simp only [perform, performStart, h]

/-- R174: the command that takes a core out of HALTED is an accepted LOAD. -/
theorem perform_leaves_halted {c : Command} {s : State} (h : s.runState = .halted)
    (hleft : (perform c s).runState ≠ .halted) : ∃ slots, c = .load slots ∧ slots.length ≤ s.params.codeMax := by
  by_contra hno
  have honly : ∃ r v, perform c s = reply c r v s := by
    cases c with
    | load slots => exact ⟨_, _, perform_load_refused (Nat.lt_of_not_le fun hlen => hno ⟨slots, rfl, hlen⟩)⟩
    | start => exact ⟨_, _, perform_start_halted h⟩
    | readInt _ | readFloat _ | readReg _ =>
      exact perform_only_replies Command.noConfusion (fun _ => Command.noConfusion) s
  obtain ⟨r, v, hreply⟩ := honly
  exact hleft (by rw [hreply, reply_runState, h])

/-- R157, R174: the step that takes a core out of HALTED performs an accepted LOAD. -/
theorem step_leaves_halted {s t : State} (h : s.runState = .halted) (hstep : step s = .next t)
    (hleft : t.runState ≠ .halted) :
    ∃ slots rest, s.pending = .load slots :: rest ∧ slots.length ≤ s.params.codeMax := by
  have hrun : s.runState ≠ .running := by simp [h]
  cases hpend : s.pending with
  | nil =>
    obtain rfl := Host.Outcome.next.inj ((step_idle hrun hpend).symm.trans hstep)
    exact absurd h hleft
  | cons c rest =>
    obtain rfl := Host.Outcome.next.inj ((step_performs_oldest hrun hpend).symm.trans hstep)
    obtain ⟨slots, rfl, hlen⟩ := perform_leaves_halted (s := { s with pending := rest }) h hleft
    exact ⟨slots, rest, rfl, hlen⟩

/-- R174: a HALTED core is observed as a fault. -/
theorem observe_halted {s : State} (h : s.runState = .halted) : observe s = .fault s.err := by
  simp only [observe, h]

end Sys2Proof.Machine

namespace Sys2Proof.Claims

open Sys2Proof.Machine

/-- Settles O39: every command but an accepted LOAD only answers in HALTED, START with `NOT_READY`; the LOAD's step writes
the clean state. -/
theorem haltedIsTerminal : Obligations.HaltedIsTerminal := by
  unfold Obligations.HaltedIsTerminal
  refine ⟨?left, ?start, fun s => observe_halted⟩
  case left =>
    intro s t h hstep hleft
    obtain ⟨slots, rest, hpend, hlen⟩ := step_leaves_halted h hstep hleft
    have hload := step_load_accepted (by simp [h]) hpend hlen
    obtain rfl := Host.Outcome.next.inj (hload.symm.trans hstep)
    exact ⟨slots, rest, hpend, hlen, rfl, rfl, rfl, rfl, rfl⟩
  case start =>
    intro s rest h hpend
    exact step_answers (by simp [h]) hpend (perform_start_halted h)

end Sys2Proof.Claims
end

section
/-! What a step can do, in a run and in the host's turn, with every field of the next state in view (R81, R157); the three
answers of the loop (R81, R82); and the state whose reads of STATUS were answered. -/

namespace Sys2Proof.Machine

/-- R81, R84, R157: everything a step of a run can do, the reads of STATUS answered first: it ends the run at the end of the
code, it halts at a slot of the code, or it commits a new stack. -/
theorem step_running_cases {s t : State} (hrun : s.runState = .running) (h : step s = .next t) :
    (s.pc.toNat = codeLen s ∧ t = complete (answerStatusReads s)) ∨
    (s.pc.toNat < codeLen s ∧ ∃ e, t = halt e (answerStatusReads s)) ∨
    (s.pc.toNat < codeLen s ∧ ∃ cells, cells.length ≤ depth s + 1 ∧
      (Memory.wf s → Memory.wf { s with stack := cells }) ∧
      t = advance { answerStatusReads s with stack := cells }) := by
  rw [step_running hrun] at h
  rcases coreStep_cases (answerStatusReads s) with
    ⟨hend, hnext⟩ | ⟨-, hout⟩ | ⟨hlt, w, -, ⟨e, -, hill⟩ | ⟨i, -, hex⟩⟩
  · exact .inl ⟨hend, Host.Outcome.next.inj (h.symm.trans hnext)⟩
  · cases hout.symm.trans h
  · exact .inr (.inl ⟨hlt, _, Host.Outcome.next.inj (h.symm.trans hill)⟩)
  · rcases exec_cases i (answerStatusReads s) with ⟨cells, -, hlen, hwf, hnext⟩ | ⟨e, -, hnext⟩
    · exact .inr (.inr ⟨hlt, cells, hlen, hwf, Host.Outcome.next.inj (h.symm.trans (hex.trans hnext))⟩)
    · exact .inr (.inl ⟨hlt, e, Host.Outcome.next.inj (h.symm.trans (hex.trans hnext))⟩)

/-- R152: START begins the run in READY. -/
theorem perform_start_ready {s : State} (h : s.runState = .ready) : perform .start s = { s with runState := .running } := by
  simp only [perform, performStart, h]

/-- R152: START finds the core not ready before a LOAD and after a run. -/
theorem perform_start_not_ready {s : State} (h : s.runState = .empty ∨ s.runState = .completed ∨ s.runState = .halted) :
    perform .start s = reply .start .notReady none s := by
  rcases h with h | h | h <;> simp only [perform, performStart, h]

/-- R150 to R156: everything a command performed outside a run can do: an accepted LOAD, the START of a run, or an answer that
changes nothing. -/
theorem perform_cases (c : Command) {s : State} (hrun : s.runState ≠ .running) :
    (∃ slots, c = .load slots ∧ slots.length ≤ s.params.codeMax ∧ perform c s = reply c .ok none
      { s with code := slots, pc := 0#64, stack := [], runState := .ready, err := none }) ∨
    (c = .start ∧ s.runState = .ready ∧ perform c s = { s with runState := .running }) ∨
    (∃ r v, perform c s = reply c r v s) := by
  cases c with
  | load slots =>
    rcases Nat.lt_or_ge s.params.codeMax slots.length with hlong | hfits
    · exact .inr (.inr ⟨_, _, perform_load_refused hlong⟩)
    · exact .inl ⟨slots, rfl, hfits, perform_load_accepted hfits⟩
  | start =>
    cases hr : s.runState with
    | running => exact absurd hr hrun
    | ready => exact .inr (.inl ⟨rfl, rfl, perform_start_ready hr⟩)
    | empty | completed | halted => exact .inr (.inr ⟨_, _, perform_start_not_ready (by simp [hr])⟩)
  | readInt _ | readFloat _ | readReg _ =>
    exact .inr (.inr (perform_only_replies Command.noConfusion (fun _ => Command.noConfusion) s))

/-- R157: everything a step outside a run can do: nothing, or the oldest command. -/
theorem step_not_running_cases {s t : State} (hrun : s.runState ≠ .running) (h : step s = .next t) :
    (s.pending = [] ∧ t = s) ∨
    (∃ c rest, s.pending = c :: rest ∧ t = perform c { s with pending := rest }) := by
  cases hpend : s.pending with
  | nil => exact .inl ⟨rfl, Host.Outcome.next.inj (h.symm.trans (step_idle hrun hpend))⟩
  | cons c rest =>
    exact .inr ⟨c, rest, rfl, Host.Outcome.next.inj (h.symm.trans (step_performs_oldest hrun hpend))⟩

/-- R157, R184: a core outside a run, with no command waiting, holds its state however long it is stepped. -/
theorem run_idle {s : State} (hrun : s.runState ≠ .running) (hpend : s.pending = []) (k : Nat) :
    Host.Core.run core k s = .next s := by
  induction k with
  | zero => rfl
  | succ k ih => rw [run_succ k (step_idle hrun hpend), ih]

/-- R157, R184: such a core is what any run of steps from it answers. -/
theorem eq_of_run_idle {s t : State} {k : Nat} (hrun : s.runState ≠ .running) (hpend : s.pending = [])
    (h : Host.Core.run core k s = .next t) : t = s :=
  Host.Outcome.next.inj (h.symm.trans (run_idle hrun hpend k))

/-- R157: a step of a run with no command held leaves none. -/
theorem pending_step_quiet {s t : State} (hrun : s.runState = .running) (hpend : s.pending = []) (h : step s = .next t) :
    t.pending = [] := by
  obtain ⟨hkept, -⟩ := coreStep_keeps_host ((step_running hrun).symm.trans h)
  rw [hkept, answerStatusReads_pending, hpend, List.filter_nil]

/-- R82: at `pc = N` the loop completes. -/
theorem coreStep_end {s : State} (h : s.pc.toNat = codeLen s) : coreStep s = .next (complete s) := if_pos h

/-- R81: before the end of the code the loop does what the slot fetched decodes to. -/
theorem coreStep_fetch {s : State} {w : Slot} (hlt : s.pc.toNat < codeLen s) (hw : fetch s = some w) :
    (∀ e, decode w = .error e → coreStep s = .next (halt .illegalInstruction s)) ∧
    (∀ i, decode w = .ok i → coreStep s = exec i s) := by
  unfold coreStep
  rw [if_neg (Nat.ne_of_lt hlt), hw]
  constructor <;> intro _ hd <;> simp only [hd]

/-- R157: with no command waiting there is no read of STATUS to answer. -/
theorem answerStatusReads_of_quiet {s : State} (hpend : s.pending = []) : answerStatusReads s = s := by
  obtain ⟨pc, code, stack, runState, err, pending, replies, params⟩ := s
  obtain rfl : pending = [] := hpend
  simp [answerStatusReads]

end Sys2Proof.Machine

namespace Sys2Proof.Claims

open Sys2Proof.Machine

/-- R157: the state whose reads of STATUS were answered, written out, is the model's own. -/
theorem answerStatusReads_eq_statusAnswered (s : State) : answerStatusReads s = statusAnswered s := by
  have hread : isStatusRead = fun c => decide (c = .readReg 0#64) := by
    funext c
    exact Bool.eq_iff_iff.mpr ((isStatusRead_iff c).trans decide_eq_true_iff.symm)
  simp only [answerStatusReads, statusAnswered, hread, decide_not]

end Sys2Proof.Claims
end

section
/-! The invariant of the core (R22, R23, R25, R27, R28): it does not look at the host's two lists, every update of a step keeps
it, and from it a step of a run either ends the run or commits one instruction more. -/

namespace Sys2Proof.Machine

/-- The invariant says nothing of the commands waiting and the replies given. -/
theorem State.Inv.host {s : State} (hs : s.Inv) (pending : List Command) (replies : List Reply) :
    ({ s with pending := pending, replies := replies } : State).Inv :=
  ⟨hs.params, hs.memory, hs.pc_le, hs.depth_le, hs.err_iff, hs.empty, hs.ready, hs.completed, hs.halted⟩

/-- R28: outside HALTED `ERR` reads `NONE`. -/
theorem State.Inv.err_none {s : State} (hs : s.Inv) (h : s.runState ≠ .halted) : s.err = none := by
  cases herr : s.err with
  | none => rfl
  | some e => exact absurd (hs.err_iff.mp (by simp [herr])) h

/-- R6, R190: an empty machine with legal parameters meets the invariant. -/
theorem inv_of_cleared {s : State} (hp : s.params.wf) (hm : Memory.wf s) (hcode : s.code = []) (hpc : s.pc = 0#64)
    (hstack : s.stack = []) (hrun : s.runState = .empty) (herr : s.err = none) : s.Inv where
  params := hp
  memory := hm
  pc_le := by simp [hpc]
  depth_le := by simp [depth, hstack]
  err_iff := by simp [herr, hrun]
  empty := fun _ => ⟨hcode, hpc⟩
  ready := by simp [hrun]
  completed := by simp [hrun]
  halted := by simp [hrun]

/-- R6: the power-on `CODE_MAX` is in range, whatever value it has. -/
theorem resetParams_wf : resetParams.wf := by
  have hlt := Config.codeMaxLessOne.isLt
  exact ⟨Nat.le_add_left _ _, by simp only [resetParams]; omega⟩

/-- R22, R83: below `N <= CODE_MAX` the advance of `pc` does not wrap. -/
theorem State.Inv.advance_pc {s : State} (hs : s.Inv) (hlt : s.pc.toNat < codeLen s) :
    (s.pc + 1#64).toNat = s.pc.toNat + 1 := by
  obtain ⟨-, hmax⟩ := hs.params
  obtain ⟨hcode, -⟩ := hs.memory
  rw [codeLen_eq_length] at hlt
  rw [BitVec.toNat_add, BitVec.toNat_ofNat]
  omega

/-- R82: completing at `pc = N` keeps the invariant. -/
theorem State.Inv.complete {s : State} (hs : s.Inv) (hrun : s.runState = .running) (hend : s.pc.toNat = codeLen s) :
    (Machine.complete s).Inv where
  params := hs.params
  memory := hs.memory
  pc_le := hs.pc_le
  depth_le := hs.depth_le
  err_iff := by simp [hs.err_none (by simp [hrun])]
  empty := by simp
  ready := by simp
  completed := fun _ => hend
  halted := by simp

/-- R172: halting on a slot of the code keeps the invariant. -/
theorem State.Inv.halt {s : State} (hs : s.Inv) (e : ErrKind) (hlt : s.pc.toNat < codeLen s) : (Machine.halt e s).Inv where
  params := hs.params
  memory := hs.memory
  pc_le := hs.pc_le
  depth_le := hs.depth_le
  err_iff := by simp
  empty := by simp
  ready := by simp
  completed := by simp
  halted := fun _ => hlt

/-- R83: committing an instruction that leaves at most one cell more keeps the invariant. -/
theorem State.Inv.commit {s : State} {cells : List Cell} (hs : s.Inv) (hrun : s.runState = .running)
    (hlt : s.pc.toNat < codeLen s) (hlen : cells.length ≤ depth s + 1) (hm : Memory.wf { s with stack := cells }) :
    (advance { s with stack := cells }).Inv := by
  have hpc : (advance { s with stack := cells }).pc.toNat = s.pc.toNat + 1 := hs.advance_pc hlt
  exact {
    params := hs.params
    memory := hm
    pc_le := hpc ▸ hlt
    depth_le := hpc ▸ Nat.le_trans hlen (Nat.succ_le_succ hs.depth_le)
    err_iff := hs.err_iff
    empty := by simp [hrun]
    ready := by simp [hrun]
    completed := by simp [hrun]
    halted := by simp [hrun] }

/-- R151, R191: an accepted LOAD gives a state that meets the invariant. -/
theorem State.Inv.load {s : State} {slots : List Slot} (hs : s.Inv) (hlen : slots.length ≤ s.params.codeMax) :
    ({ s with code := slots, pc := 0#64, stack := [], runState := .ready, err := none } : State).Inv where
  params := hs.params
  memory := ⟨hlen, capHolds_zero _⟩
  pc_le := Nat.zero_le _
  depth_le := Nat.le_refl _
  err_iff := by simp
  empty := by simp
  ready := fun _ => rfl
  completed := by simp
  halted := by simp

/-- R152: the START of a run keeps the invariant. -/
theorem State.Inv.start {s : State} (hs : s.Inv) (hready : s.runState = .ready) :
    ({ s with runState := .running } : State).Inv where
  params := hs.params
  memory := hs.memory
  pc_le := hs.pc_le
  depth_le := hs.depth_le
  err_iff := by simp [hs.err_none (by simp [hready])]
  empty := by simp
  ready := by simp
  completed := by simp
  halted := by simp

/-- R150: a command performed outside a run keeps the invariant. -/
theorem State.Inv.perform {s : State} (hs : s.Inv) (hrun : s.runState ≠ .running) (c : Command) :
    (Machine.perform c s).Inv := by
  rcases perform_cases c hrun with ⟨slots, -, hlen, hload⟩ | ⟨-, hready, hstart⟩ | ⟨r, v, hreply⟩
  · rw [hload]
    exact (hs.load hlen).host _ _
  · rw [hstart]
    exact hs.start hready
  · rw [hreply]
    exact hs.host _ _

/-- R80: every step keeps the invariant. -/
theorem State.Inv.step {s t : State} (hs : s.Inv) (h : Machine.step s = .next t) : t.Inv := by
  by_cases hrun : s.runState = .running
  · have ha : (answerStatusReads s).Inv := hs.host _ _
    rcases step_running_cases hrun h with ⟨hend, rfl⟩ | ⟨hlt, e, rfl⟩ | ⟨hlt, cells, hlen, hwf, rfl⟩
    · exact ha.complete hrun hend
    · exact ha.halt e hlt
    · exact ha.commit hrun hlt hlen (hwf hs.memory)
  · rcases step_not_running_cases hrun h with ⟨-, rfl⟩ | ⟨c, rest, -, rfl⟩
    · exact hs
    · exact (hs.host rest s.replies).perform hrun c

/-- R22, R81: from the invariant every step answers a next state, pc being no further than the end of the code. -/
theorem State.Inv.step_answers {s : State} (hs : s.Inv) : ∃ t, Machine.step s = .next t := by
  by_cases hrun : s.runState = .running
  · rw [step_running hrun]
    rcases coreStep_cases (answerStatusReads s) with
      ⟨-, hend⟩ | ⟨hgt, -⟩ | ⟨-, w, -, ⟨e, -, hill⟩ | ⟨i, -, hex⟩⟩
    · exact ⟨_, hend⟩
    · exact absurd hs.pc_le (Nat.not_le_of_lt hgt)
    · exact ⟨_, hill⟩
    · rcases exec_cases i (answerStatusReads s) with ⟨cells, -, -, -, hnext⟩ | ⟨e, -, hnext⟩
      · exact ⟨_, hex.trans hnext⟩
      · exact ⟨_, hex.trans hnext⟩
  · exact ⟨_, step_not_running hrun⟩

/-- R83, R91: a run that goes on for a step is one instruction nearer to the end of its code. -/
theorem State.Inv.step_ends_or_advances {s : State} (hs : s.Inv) (hrun : s.runState = .running) :
    ∃ t, Machine.step s = .next t ∧ t.Inv ∧
      ((t.runState = .completed ∨ t.runState = .halted) ∨
       (t.runState = .running ∧ s.pc.toNat < codeLen s ∧ t.pc.toNat = s.pc.toNat + 1 ∧ codeLen t = codeLen s)) := by
  obtain ⟨t, h⟩ := hs.step_answers
  refine ⟨t, h, hs.step h, ?_⟩
  rcases step_running_cases hrun h with ⟨-, rfl⟩ | ⟨-, e, rfl⟩ | ⟨hlt, cells, -, -, rfl⟩
  · exact .inl (.inl rfl)
  · exact .inl (.inr rfl)
  · exact .inr ⟨hrun, hlt, hs.advance_pc hlt, rfl⟩

/-- R91: a run with `n` instructions left ends within `n + 1` steps. -/
theorem run_ends_within (n : Nat) {s : State} (hs : s.Inv) (hrun : s.runState = .running) (hn : codeLen s - s.pc.toNat = n) :
    ∃ k t, k ≤ n + 1 ∧ Host.Core.run core k s = .next t ∧ (t.runState = .completed ∨ t.runState = .halted) := by
  induction n generalizing s with
  | zero =>
    obtain ⟨t, h, -, hend | ⟨-, hlt, -, -⟩⟩ := hs.step_ends_or_advances hrun
    · exact ⟨1, t, Nat.le_refl 1, (run_succ 0 h).trans (run_zero t), hend⟩
    · omega
  | succ n ih =>
    obtain ⟨t, h, ht, hend | ⟨hgo, hlt, hpc, hcode⟩⟩ := hs.step_ends_or_advances hrun
    · exact ⟨1, t, by omega, (run_succ 0 h).trans (run_zero t), hend⟩
    · obtain ⟨k, u, hk, hu, hend⟩ := ih ht hgo (by omega)
      exact ⟨k + 1, u, by omega, (run_succ k h).trans hu, hend⟩

end Sys2Proof.Machine

namespace Sys2Proof.Claims

open Sys2Proof.Machine

/-- Settles O7: both states are empty machines, and the power-on parameters are legal whatever their free values. -/
theorem invariantHoldsAtReset : Obligations.InvariantHoldsAtReset := by
  unfold Obligations.InvariantHoldsAtReset
  exact ⟨inv_of_cleared resetParams_wf reset_memory_wf rfl rfl rfl rfl rfl,
    fun s hs => inv_of_cleared hs.params (powerOn_wf s) rfl rfl rfl rfl rfl⟩

/-- Settles O8: each of the updates a step can make keeps the invariant, and issuing a command touches the host's list
alone. -/
theorem stepKeepsInvariant : Obligations.StepKeepsInvariant := by
  unfold Obligations.StepKeepsInvariant
  exact ⟨fun s t hs h => hs.step h, fun s c hs => hs.host _ _⟩

/-- Settles O9: the invariant keeps pc within the code, where every fetch finds a slot. -/
theorem stepFromInvariantAnswers : Obligations.StepFromInvariantAnswers := by
  unfold Obligations.StepFromInvariantAnswers
  exact fun s hs => hs.step_answers

/-- Settles O10: by induction on the instructions left, each step of the run ending it or leaving one fewer. -/
theorem everyRunEnds : Obligations.EveryRunEnds := by
  unfold Obligations.EveryRunEnds
  exact fun s hs hrun => run_ends_within _ hs hrun rfl

/-- Settles O11: by induction on the steps: one that ends the run leaves the core idle for good, so a run that still runs has
committed at every step. -/
theorem runCountsCommits : Obligations.RunCountsCommits := by
  unfold Obligations.RunCountsCommits
  intro k
  induction k with
  | zero =>
    intro s t hrun hpend h _
    obtain rfl := Host.Outcome.next.inj h
    exact ⟨(BitVec.add_zero _).symm, rfl, rfl, rfl, hpend⟩
  | succ k ih =>
    intro s u hrun hpend h hgoes
    obtain ⟨t, hstep, h⟩ := run_succ_next h
    have hquiet := pending_step_quiet hrun hpend hstep
    by_cases hgo : t.runState = .running
    · obtain ⟨hpc, hcode, hparams, hreplies, hpend'⟩ := ih _ _ hgo hquiet h hgoes
      rcases step_running_cases hrun hstep with ⟨-, rfl⟩ | ⟨-, e, rfl⟩ | ⟨-, cells, -, -, rfl⟩
      · cases hgo
      · cases hgo
      · rw [answerStatusReads_of_quiet hpend] at hpc hcode hparams hreplies
        refine ⟨?_, hcode, hparams, hreplies, hpend'⟩
        rw [hpc, advance_pc, BitVec.add_assoc, ← BitVec.ofNat_add, Nat.add_comm 1 k]
    · obtain rfl := eq_of_run_idle hgo hquiet h
      exact absurd hgoes hgo

end Sys2Proof.Claims
end

section
/-! The loop (R81 to R84): its three answers as steps of a run; what an instruction commits, or the halt it ends in; that the
effect of an instruction depends on the cells and the parameters alone; and what a step can do to the code (R41, R55). -/

namespace Sys2Proof.Machine

/-- R85, R102, R87: an instruction pushes a cell, drops the top, or is one of the binary frames. -/
theorem effect_kinds (i : Instr) :
    (∃ v, i = .pushInteger v ∨ i = .pushFloat v) ∨ i = .pop ∨ Claims.IsAlu i := by
  cases i <;> simp [Claims.IsAlu]

/-- R85: a push of one cell answers alike on stacks that are alike, under one capacity. -/
theorem push_congr (v : Cell) {s t : State} (hstack : s.stack = t.stack) (hparams : s.params = t.params) :
    (∃ cells, push v s = .ok { s with stack := cells } ∧ push v t = .ok { t with stack := cells }) ∨
    (∃ e, push v s = .error e ∧ push v t = .error e) := by
  cases hfull : capReached t.params.stackCap t.stack.length with
  | true => exact .inr ⟨_, push_full v (by rw [hstack, hparams, hfull]), push_full v hfull⟩
  | false => exact .inl ⟨_, push_room v (by rw [hstack, hparams, hfull]), by rw [push_room v hfull, hstack]⟩

/-- R87: so does a binary frame. -/
theorem binOp_congr (f : Cell → Cell → Except ErrKind Cell) {s t : State} (hstack : s.stack = t.stack)
    (hparams : s.params = t.params) :
    (∃ cells, binOp f s = .ok { s with stack := cells } ∧ binOp f t = .ok { t with stack := cells }) ∨
    (∃ e, binOp f s = .error e ∧ binOp f t = .error e) := by
  rcases ht : t.stack with _ | ⟨a, _ | ⟨b, rest⟩⟩
  · exact .inr ⟨_, binOp_short f (by simp [depth, hstack, ht]), binOp_short f (by simp [depth, ht])⟩
  · exact .inr ⟨_, binOp_short f (by simp [depth, hstack, ht]), binOp_short f (by simp [depth, ht])⟩
  · rw [binOp_two ht, binOp_two (hstack.trans ht)]
    cases f a b with
    | error e => exact .inr ⟨e, rfl, rfl⟩
    | ok r => exact push_congr r (s := { s with stack := rest }) (t := { t with stack := rest }) rfl hparams

/-- R23, R81: a slot other than the one at pc is not the one fetched. -/
theorem fetch_set_ne {s : State} {j : Nat} (w : Slot) (hj : j ≠ s.pc.toNat) :
    fetch { s with code := s.code.set j w } = fetch s := List.getElem?_set_ne hj

/-- R23: writing a slot keeps the length of the code. -/
theorem codeLen_set (s : State) (j : Nat) (w : Slot) : codeLen { s with code := s.code.set j w } = codeLen s :=
  List.length_set

/-- R6: an instruction keeps the parameters. -/
theorem exec_params {i : Instr} {s t : State} (h : exec i s = .next t) : t.params = s.params := by
  rcases exec_cases i s with ⟨cells, -, -, -, hex⟩ | ⟨e, -, hex⟩ <;>
  · obtain rfl := Host.Outcome.next.inj (hex.symm.trans h)
    rfl

/-- R151: a command performed outside a run keeps the parameters, and the code unless it is an accepted LOAD. -/
theorem perform_params_code (c : Command) {s : State} (hrun : s.runState ≠ .running) :
    (perform c s).params = s.params ∧ ((perform c s).code = s.code ∨
      ∃ slots, c = .load slots ∧ (perform c s).code = slots ∧ slots.length ≤ s.params.codeMax) := by
  rcases perform_cases c hrun with ⟨slots, hc, hlen, hload⟩ | ⟨-, -, hstart⟩ | ⟨r, v, hreply⟩
  · rw [hload]
    exact ⟨rfl, .inr ⟨slots, hc, rfl, hlen⟩⟩
  · rw [hstart]
    exact ⟨rfl, .inl rfl⟩
  · rw [hreply]
    exact ⟨rfl, .inl rfl⟩

/-- R41: a step of a run keeps the parameters and the code. -/
theorem step_running_params_code {s t : State} (hrun : s.runState = .running) (h : step s = .next t) :
    t.params = s.params ∧ t.code = s.code := by
  rcases step_running_cases hrun h with ⟨-, rfl⟩ | ⟨-, e, rfl⟩ | ⟨-, cells, -, -, rfl⟩ <;> exact ⟨rfl, rfl⟩

end Sys2Proof.Machine

namespace Sys2Proof.Claims

open Sys2Proof.Machine

/-- R87, R111: the operation of an ALU instruction is chosen by `INT_OVERFLOW` alone. -/
theorem IsAlu.effect_uniform {i : Instr} (hi : IsAlu i) :
    ∃ f : Config.IntOverflow → Cell → Cell → Except ErrKind Cell,
      ∀ s : State, effect i s = binOp (f s.params.intOverflow) s := by
  rcases hi with rfl | rfl | rfl | rfl | rfl | rfl | rfl | rfl
  · exact ⟨addIntOp, fun _ => rfl⟩
  · exact ⟨subIntOp, fun _ => rfl⟩
  · exact ⟨mulIntOp, fun _ => rfl⟩
  · exact ⟨divIntOp, fun _ => rfl⟩
  · exact ⟨fun _ => addFloatOp, fun _ => rfl⟩
  · exact ⟨fun _ => subFloatOp, fun _ => rfl⟩
  · exact ⟨fun _ => mulFloatOp, fun _ => rfl⟩
  · exact ⟨fun _ => divFloatOp, fun _ => rfl⟩

/-- R26, R140: on stacks that are alike, under the same parameters, an instruction leaves the same cells or raises the same
error. -/
theorem effect_congr (i : Instr) {s t : State} (hstack : s.stack = t.stack) (hparams : s.params = t.params) :
    (∃ cells, effect i s = .ok { s with stack := cells } ∧ effect i t = .ok { t with stack := cells }) ∨
    (∃ e, effect i s = .error e ∧ effect i t = .error e) := by
  rcases effect_kinds i with ⟨v, rfl | rfl⟩ | rfl | hi
  · exact push_congr v hstack hparams
  · exact push_congr v hstack hparams
  · exact .inl ⟨s.stack.tail, rfl, by rw [hstack]; rfl⟩
  · obtain ⟨f, hf⟩ := hi.effect_uniform
    have hop : effect i s = binOp (f t.params.intOverflow) s := (hf s).trans (by rw [hparams])
    rw [hop, hf t]
    exact binOp_congr _ hstack hparams

/-- R26, R140: what an instruction does is a function of the cells and the parameters. -/
theorem sameOutcome_of_cells (i : Instr) {s t : State} (hstack : s.stack = t.stack) (hparams : s.params = t.params) :
    SameOutcome i s t := by
  rcases effect_congr i hstack hparams with ⟨cells, hs, ht⟩ | ⟨e, hs, ht⟩
  · exact .inl ⟨cells, exec_of_effect_ok hs, exec_of_effect_ok ht⟩
  · exact .inr ⟨e, exec_of_effect_error hs, exec_of_effect_error ht⟩

/-- R68: writing a slot that is not fetched changes nothing else in the step of the loop. -/
theorem coreStep_set_unfetched {s t : State} {j : Nat} (w : Slot) (hj : j ≠ s.pc.toNat) (h : coreStep s = .next t) :
    coreStep { s with code := s.code.set j w } = .next { t with code := t.code.set j w } := by
  rcases coreStep_cases s with ⟨hend, hnext⟩ | ⟨-, hout⟩ | ⟨hlt, x, hx, hslot⟩
  · obtain rfl := Host.Outcome.next.inj (hnext.symm.trans h)
    exact coreStep_end (hend.trans (codeLen_set s j w).symm)
  · cases hout.symm.trans h
  · obtain ⟨hill, hex⟩ := coreStep_fetch (s := { s with code := s.code.set j w })
      (Nat.lt_of_lt_of_eq hlt (codeLen_set s j w).symm) ((fetch_set_ne w hj).trans hx)
    rcases hslot with ⟨e, hd, hnext⟩ | ⟨i, hd, hnext⟩
    · obtain rfl := Host.Outcome.next.inj (hnext.symm.trans h)
      exact hill e hd
    · refine (hex i hd).trans ?_
      rcases sameOutcome_of_cells i (s := s) (t := { s with code := s.code.set j w }) rfl rfl with
        ⟨cells, hs, hset⟩ | ⟨e, hs, hset⟩ <;>
      · obtain rfl := Host.Outcome.next.inj ((hnext.trans hs).symm.trans h)
        exact hset

/-- Settles O12: the three answers of the loop, in the state whose reads of STATUS were answered. -/
theorem stepRunsDecodedInstruction : Obligations.StepRunsDecodedInstruction := by
  unfold Obligations.StepRunsDecodedInstruction
  have hstep : ∀ s : State, s.runState = .running → step s = coreStep (statusAnswered s) := fun s hrun => by
    rw [step_running hrun, answerStatusReads_eq_statusAnswered]
  refine ⟨fun s hrun hend => (hstep s hrun).trans (coreStep_end hend), ?illegal, ?decoded⟩
  case illegal =>
    intro s w e hrun hlt hw hd
    exact (hstep s hrun).trans ((coreStep_fetch (s := statusAnswered s) hlt hw).1 e hd)
  case decoded =>
    intro s w i hrun hlt hw hd
    exact (hstep s hrun).trans ((coreStep_fetch (s := statusAnswered s) hlt hw).2 i hd)

/-- Settles O13: the step at the end of the code writes the run state and START's reply alone. -/
theorem runCompletesAtEnd : Obligations.RunCompletesAtEnd := by
  unfold Obligations.RunCompletesAtEnd
  intro s hrun hend
  exact ⟨_, stepRunsDecodedInstruction.1 s hrun hend, rfl, rfl, rfl, rfl, rfl, rfl⟩

/-- Settles O14: the two ways an instruction can end. -/
theorem commitAdvancesPc : Obligations.CommitAdvancesPc := by
  unfold Obligations.CommitAdvancesPc
  intro i s
  rcases exec_cases i s with ⟨cells, -, -, -, hex⟩ | ⟨e, -, hex⟩
  · exact .inl ⟨_, hex, rfl, rfl, rfl, rfl⟩
  · exact .inr ⟨e, hex⟩

/-- Settles O16: no step of a run writes the code, and of the commands performed outside one an accepted LOAD alone does. -/
theorem onlyLoadWritesCode : Obligations.OnlyLoadWritesCode := by
  unfold Obligations.OnlyLoadWritesCode
  intro s t h
  by_cases hrun : s.runState = .running
  · obtain ⟨hparams, hcode⟩ := step_running_params_code hrun h
    exact ⟨hparams, fun _ => hcode, fun hne => absurd hcode hne⟩
  · rcases step_not_running_cases hrun h with ⟨-, rfl⟩ | ⟨c, rest, hpend, rfl⟩
    · exact ⟨rfl, fun _ => rfl, fun hne => absurd rfl hne⟩
    · obtain ⟨hparams, hcode⟩ := perform_params_code c (s := { s with pending := rest }) hrun
      refine ⟨hparams, fun hr => absurd hr hrun, fun hne => ?_⟩
      obtain ⟨slots, rfl, hslots, hlen⟩ := hcode.resolve_left hne
      exact ⟨slots, rest, hpend, hslots, hlen⟩

/-- Settles O17: an illegal slot decodes to nothing, so its fetch halts; a LOAD checks the length alone; and a step reads the
code at pc alone. -/
theorem illegalSlotHalts : Obligations.IllegalSlotHalts := by
  unfold Obligations.IllegalSlotHalts
  obtain ⟨-, hfetched, -⟩ := stepRunsDecodedInstruction
  refine ⟨?fetched, fun s slots rest hrun hpend hlen => ⟨_, step_load_accepted hrun hpend hlen, rfl, rfl⟩, ?unfetched⟩
  case fetched =>
    intro s w hrun hlt hw hill
    obtain ⟨e, hd⟩ := decode_illegal hill
    exact ⟨hfetched s w e hrun hlt hw hd, rfl⟩
  case unfetched =>
    intro s t j w hrun hj h
    rw [step_running hrun] at h
    rw [step_running (s := { s with code := s.code.set j w }) hrun]
    exact coreStep_set_unfetched (s := answerStatusReads s) w hj h

/-- Settles O38: the halting step is a halt of the state whose reads of STATUS were answered; with no command waiting a HALTED
core is idle. -/
theorem haltWritesOnlyErrAndRunState : Obligations.HaltWritesOnlyErrAndRunState := by
  unfold Obligations.HaltWritesOnlyErrAndRunState
  refine ⟨?halting, fun s h => step_idle (by simp [h])⟩
  case halting =>
    intro s t hrun hstep ht
    obtain ⟨e, rfl⟩ := step_halts_run hrun hstep ht
    exact ⟨e, by rw [halt_eq_haltedWith, answerStatusReads_eq_statusAnswered], rfl, rfl⟩

/-- Settles O43: the outcome is a function of the cells and the parameters, the latter being what every instruction leaves;
the two pushes are one operation. -/
theorem cellsAreUntyped : Obligations.CellsAreUntyped := by
  unfold Obligations.CellsAreUntyped
  refine ⟨fun i t u => sameOutcome_of_cells i, ?producers, ?pushes⟩
  case producers =>
    intro p q i s r t u _ _ hparams ht hu hstack
    exact sameOutcome_of_cells i hstack ((exec_params ht).trans (hparams.trans (exec_params hu).symm))
  case pushes =>
    intro s t u v i ht hu
    obtain rfl : t = u := Host.Outcome.next.inj (ht.symm.trans hu)
    exact ⟨rfl, rfl⟩

end Sys2Proof.Claims
end

section
/-! The rounding of the unit (R131, R133, R134). The result is a significand `m`, the nearest integer in units of the last place
`2^e`, and the exponent field carries: its pattern reads as `m * 2^e`, no other number is nearer, and the field reaches 2047 from
the midpoint above the largest finite number on. -/

namespace Sys2Proof.Machine

/-- R131: rounding is never below the floor. -/
theorem le_nearestEven {num d k : Nat} (hd : 0 < d) (h : d * k ≤ num) : k ≤ nearestEven num d := by
  have hq : k ≤ num / d := (Nat.le_div_iff_mul_le hd).mpr (Nat.mul_comm k d ▸ h)
  unfold nearestEven
  dsimp only
  split <;> omega

/-- R131: below the midpoint above `k` the nearest integer is at most `k`. -/
theorem nearestEven_le {num d k : Nat} (hd : 0 < d) (h : 2 * num < d * (2 * k + 1)) : nearestEven num d ≤ k := by
  have hdm : d * (num / d) + num % d = num := Nat.div_add_mod num d
  have hr : num % d < d := Nat.mod_lt num hd
  have hexpand : d * (2 * k + 1) = 2 * (d * k) + d := by ring
  have hq : num / d ≤ k := by
    by_contra hlt
    have hmul : d * (k + 1) ≤ d * (num / d) := Nat.mul_le_mul_left d (Nat.lt_of_not_le hlt)
    rw [Nat.mul_succ] at hmul
    omega
  unfold nearestEven
  dsimp only
  rcases Nat.lt_or_eq_of_le hq with hlt | heq
  · split <;> omega
  · rw [heq] at hdm ⊢
    rw [if_neg (by omega)]

/-- R131: from the midpoint above an odd `k` on, the nearest integer is above `k`, the tie going to the even one. -/
theorem lt_nearestEven_of_odd {num d k : Nat} (hd : 0 < d) (hodd : k % 2 = 1) (h : d * (2 * k + 1) ≤ 2 * num) :
    k < nearestEven num d := by
  have hdm : d * (num / d) + num % d = num := Nat.div_add_mod num d
  have hexpand : d * (2 * k + 1) = 2 * (d * k) + d := by ring
  have hq : k ≤ num / d := (Nat.le_div_iff_mul_le hd).mpr (by rw [Nat.mul_comm]; omega)
  unfold nearestEven
  dsimp only
  rcases Nat.lt_or_eq_of_le hq with hlt | heq
  · split <;> omega
  · rw [← heq] at hdm ⊢
    rw [if_pos (by omega)]
    omega

/-- R133: the last place of a magnitude is the least one at which 53 bits reach it. -/
theorem lastPlace_le_iff (units n : Nat) : lastPlace units ≤ n ↔ units < 2 ^ (53 + n) := by
  unfold lastPlace
  rcases Nat.eq_zero_or_pos units with rfl | hpos
  · simp
  · rw [← Nat.log2_lt (Nat.pos_iff_ne_zero.mp hpos)]
    omega

/-- R133: 53 bits at the last place reach the magnitude. -/
theorem lt_lastPlace (units : Nat) : units < 2 ^ 53 * 2 ^ lastPlace units := by
  rw [← pow_add]
  exact (lastPlace_le_iff units _).mp (Nat.le_refl _)

/-- R133: above the subnormals, 52 bits at the last place do not. -/
theorem lastPlace_le {units : Nat} (h : lastPlace units ≠ 0) : 2 ^ 52 * 2 ^ lastPlace units ≤ units := by
  obtain ⟨n, hn⟩ := Nat.exists_eq_succ_of_ne_zero h
  have hle : 2 ^ (53 + n) ≤ units := by
    rw [← Nat.not_lt, ← lastPlace_le_iff]
    omega
  rwa [hn, ← pow_add, show 52 + n.succ = 53 + n by omega]

/-- R133: the last place of the magnitude `num / den`. -/
def roundedPlace (num den : Nat) : Nat := lastPlace (num / den)

/-- R131: the magnitude `num / den` in units of its last place, rounded to the nearest integer. -/
def roundedSig (num den : Nat) : Nat := nearestEven num (den * 2 ^ roundedPlace num den)

/-- R131, R134: the rounding of the unit in those terms. -/
theorem roundUnits_eq (neg : Bool) (num den : Nat) :
    roundUnits neg num den =
      if 2047 * 2 ^ 52 ≤ roundedPlace num den * 2 ^ 52 + roundedSig num den then infBits neg
      else zeroBits neg ||| BitVec.ofNat 64 (roundedPlace num den * 2 ^ 52 + roundedSig num den) := rfl

section Rounded
variable {num den : Nat} (hden : 0 < den)
include hden

/-- The unit a magnitude is rounded in is not zero. -/
theorem unit_pos (num : Nat) : 0 < den * 2 ^ roundedPlace num den := Nat.mul_pos hden (Nat.two_pow_pos _)

/-- R131: a rounded significand has 53 bits, or has carried to the one number above them. -/
theorem roundedSig_le : roundedSig num den ≤ 2 ^ 53 := by
  refine nearestEven_le (unit_pos hden num) ?_
  have hlt : num < 2 ^ 53 * 2 ^ roundedPlace num den * den := (Nat.div_lt_iff_lt_mul hden).mp (lt_lastPlace _)
  calc 2 * num < 2 * (2 ^ 53 * 2 ^ roundedPlace num den * den) := by omega
    _ = den * 2 ^ roundedPlace num den * (2 * 2 ^ 53) := by ring
    _ ≤ den * 2 ^ roundedPlace num den * (2 * 2 ^ 53 + 1) := Nat.mul_le_mul_left _ (Nat.le_succ _)

/-- R133: a magnitude above the subnormals is at least 52 bits of its last place. -/
theorem unit_mul_le (h : roundedPlace num den ≠ 0) : den * (2 ^ 52 * 2 ^ roundedPlace num den) ≤ num := by
  rw [Nat.mul_comm]
  exact (Nat.le_div_iff_mul_le hden).mp (lastPlace_le h)

/-- R133: the significand of a number above the subnormals has its hidden bit. -/
theorem le_roundedSig (h : roundedPlace num den ≠ 0) : 2 ^ 52 ≤ roundedSig num den := by
  refine le_nearestEven (unit_pos hden num) ?_
  rw [Nat.mul_assoc, Nat.mul_comm (2 ^ _)]
  exact unit_mul_le hden h

/-- R133: 53 bits at the place `k` reach the magnitude when its last place is at most `k`. -/
theorem roundedPlace_le_iff (k : Nat) : roundedPlace num den ≤ k ↔ num < den * (2 ^ 53 * 2 ^ k) := by
  rw [roundedPlace, lastPlace_le_iff, Nat.div_lt_iff_lt_mul hden, pow_add, Nat.mul_comm]

/-- R134: below the midpoint between `2^53 - 1` units of `2^(n+1)` and `2^53` of them, 53 bits at that place are enough. -/
theorem roundedPlace_le_of_lt {n : Nat} (h : num < den * ((2 ^ 54 - 1) * 2 ^ n)) : roundedPlace num den ≤ n + 1 := by
  rw [roundedPlace_le_iff hden, pow_succ' 2 n, ← Nat.mul_assoc (2 ^ 53)]
  have hwide : 2 ^ 54 - 1 ≤ 2 ^ 53 * 2 := by norm_num
  exact Nat.lt_of_lt_of_le h (Nat.mul_le_mul_left den (Nat.mul_le_mul_right (2 ^ n) hwide))

/-- R134: from that midpoint on, 53 bits at the place before are not. -/
theorem lt_roundedPlace_of_le {n : Nat} (h : den * ((2 ^ 54 - 1) * 2 ^ n) ≤ num) : n < roundedPlace num den := by
  rw [← Nat.not_le, roundedPlace_le_iff hden, Nat.not_lt]
  have hnarrow : 2 ^ 53 ≤ 2 ^ 54 - 1 := by norm_num
  exact Nat.le_trans (Nat.mul_le_mul_left den (Nat.mul_le_mul_right (2 ^ n) hnarrow)) h

omit hden in
/-- The midpoint in terms of the unit it lies between two multiples of. -/
theorem midpoint_eq (den n : Nat) :
    2 * (den * ((2 ^ 54 - 1) * 2 ^ n)) = den * 2 ^ (n + 1) * (2 * (2 ^ 53 - 1) + 1) := by
  rw [pow_succ, show 2 * (2 ^ 53 - 1) + 1 = 2 ^ 54 - 1 from rfl]
  generalize 2 ^ 54 - 1 = c
  ring

/-- R131, R134: at that place the significand stays within 53 bits exactly below the midpoint, the tie going to the even
`2^53`. -/
theorem roundedSig_lt_iff {n : Nat} (hplace : roundedPlace num den = n + 1) :
    roundedSig num den < 2 ^ 53 ↔ num < den * ((2 ^ 54 - 1) * 2 ^ n) := by
  have hunit := hplace ▸ unit_pos hden num
  rw [roundedSig, hplace]
  constructor
  · intro hsig
    by_contra hge
    have hcarry : 2 ^ 53 - 1 < nearestEven num (den * 2 ^ (n + 1)) :=
      lt_nearestEven_of_odd hunit (by norm_num) (midpoint_eq den n ▸ Nat.mul_le_mul_left 2 (Nat.le_of_not_lt hge))
    exact Nat.not_lt_of_le (Nat.le_of_pred_lt hcarry) hsig
  · intro hlt
    exact Nat.lt_of_le_pred (by norm_num)
      (nearestEven_le hunit (midpoint_eq den n ▸ Nat.mul_lt_mul_of_pos_left hlt Nat.two_pos))

/-- R134: the exponent field reaches `n + 3` from that midpoint on. -/
theorem roundedField_lt_iff (n : Nat) :
    roundedPlace num den * 2 ^ 52 + roundedSig num den < (n + 3) * 2 ^ 52 ↔ num < den * ((2 ^ 54 - 1) * 2 ^ n) := by
  have hle := roundedSig_le (num := num) hden
  rcases Nat.lt_trichotomy (roundedPlace num den) (n + 1) with hlow | hplace | hhigh
  · have hbelow : num < den * ((2 ^ 54 - 1) * 2 ^ n) :=
      Nat.lt_of_not_le fun hge => absurd (lt_roundedPlace_of_le hden hge) (by omega)
    exact iff_of_true (by omega) hbelow
  · rw [← roundedSig_lt_iff hden hplace, hplace]
    omega
  · have hsig := le_roundedSig hden (num := num) (by omega)
    have habove : ¬ num < den * ((2 ^ 54 - 1) * 2 ^ n) := fun hlt => absurd (roundedPlace_le_of_lt hden hlt) (by omega)
    exact iff_of_false (by omega) habove

/-- R131: no multiple of a power of two by a 53-bit significand is nearer to `num / den` than the rounded one, and if another is
as near then the rounded significand is even. -/
theorem roundedSig_nearest {sig : Nat} (exp : Nat) (hsig : sig < 2 ^ 53) :
    distance num den (roundedSig num den * 2 ^ roundedPlace num den) ≤ distance num den (sig * 2 ^ exp) ∧
    (distance num den (roundedSig num den * 2 ^ roundedPlace num den) = distance num den (sig * 2 ^ exp) →
      sig * 2 ^ exp ≠ roundedSig num den * 2 ^ roundedPlace num den → roundedSig num den % 2 = 0) := by
  have hunit : ∀ k, distance num den (k * 2 ^ roundedPlace num den) = distance num (den * 2 ^ roundedPlace num den) k :=
    fun k => by rw [distance, distance, Nat.mul_comm k, Nat.mul_assoc]
  have hnear := nearestEven_near num (unit_pos hden num)
  rw [hunit]
  rcases Nat.lt_or_ge exp (roundedPlace num den) with hlow | hhigh
  · have hbelow : sig * 2 ^ exp < 2 ^ 52 * 2 ^ roundedPlace num den := by
      calc sig * 2 ^ exp < 2 ^ 53 * 2 ^ exp := Nat.mul_lt_mul_of_pos_right hsig (Nat.two_pow_pos _)
        _ = 2 ^ 52 * 2 ^ (exp + 1) := by ring
        _ ≤ 2 ^ 52 * 2 ^ roundedPlace num den := Nat.mul_le_mul_left _ (Nat.pow_le_pow_right (by omega) hlow)
    have hreach := unit_mul_le hden (num := num) (by omega)
    have hfar : distance num den (2 ^ 52 * 2 ^ roundedPlace num den) < distance num den (sig * 2 ^ exp) := by
      have hmul := Nat.mul_lt_mul_of_pos_left hbelow hden
      unfold distance
      split <;> split <;> omega
    rw [hunit] at hfar
    have hlt := Nat.lt_of_le_of_lt (hnear (2 ^ 52)).1 hfar
    exact ⟨Nat.le_of_lt hlt, fun heq => absurd heq (Nat.ne_of_lt hlt)⟩
  · have hmultiple : sig * 2 ^ exp = sig * 2 ^ (exp - roundedPlace num den) * 2 ^ roundedPlace num den := by
      rw [Nat.mul_assoc, ← pow_add, Nat.sub_add_cancel hhigh]
    rw [hmultiple, hunit]
    obtain ⟨hle, htie⟩ := hnear (sig * 2 ^ (exp - roundedPlace num den))
    exact ⟨hle, fun heq hne => htie heq fun hk => hne (by rw [hk]; rfl)⟩

end Rounded

/-- R9, R131: a sign, and a significand `m` added to the exponent field `e`, read as the magnitude `m * 2^e`: a significand of 53
bits has its hidden bit carried into the field, and one of `2^53` carries once more. -/
theorem f64_rounded {v : Cell} {neg : Bool} {m e : Nat} (hm : m ≤ 2 ^ 53) (hhidden : e ≠ 0 → 2 ^ 52 ≤ m)
    (hfield : e * 2 ^ 52 + m < 2047 * 2 ^ 52) (hv : v.toNat = (if neg then 2 ^ 63 else 0) + (e * 2 ^ 52 + m)) :
    ∃ sig exp, f64 v = .finite neg sig exp ∧ sig * 2 ^ exp = m * 2 ^ e := by
  rw [f64_pattern v neg _ hfield hv]
  by_cases hsub : e * 2 ^ 52 + m < 2 ^ 52
  · rw [if_pos hsub]
    obtain rfl : e = 0 := by omega
    exact ⟨_, _, rfl, by rw [Nat.zero_mul, Nat.zero_add]⟩
  · rw [if_neg hsub]
    refine ⟨_, _, rfl, ?_⟩
    rcases Nat.lt_or_eq_of_le hm with hlt | rfl
    · rw [show (e * 2 ^ 52 + m) % 2 ^ 52 + 2 ^ 52 = m by omega, show (e * 2 ^ 52 + m) / 2 ^ 52 - 1 = e by omega]
    · rw [show (e * 2 ^ 52 + 2 ^ 53) % 2 ^ 52 + 2 ^ 52 = 2 ^ 52 by omega,
        show (e * 2 ^ 52 + 2 ^ 53) / 2 ^ 52 - 1 = e + 1 by omega, pow_succ]
      ring

/-- R9: a finite magnitude has one significand and exponent. -/
theorem units_injective {sig exp sig' exp' : Nat} (hsig : sig < 2 ^ 53) (hsig' : sig' < 2 ^ 53)
    (hhidden : 0 < exp → 2 ^ 52 ≤ sig) (hhidden' : 0 < exp' → 2 ^ 52 ≤ sig') (h : sig * 2 ^ exp = sig' * 2 ^ exp') :
    sig = sig' ∧ exp = exp' := by
  wlog hle : exp ≤ exp' generalizing sig exp sig' exp'
  · obtain ⟨rfl, rfl⟩ := this hsig' hsig hhidden' hhidden h.symm (by omega)
    exact ⟨rfl, rfl⟩
  obtain ⟨k, rfl⟩ := Nat.exists_eq_add_of_le hle
  have hscale : sig = sig' * 2 ^ k := by
    rw [pow_add, Nat.mul_left_comm, Nat.mul_comm] at h
    exact Nat.eq_of_mul_eq_mul_left (Nat.two_pow_pos exp) h
  rcases k with _ | k
  · exact ⟨by simpa using hscale, rfl⟩
  · have hpow : 2 ≤ 2 ^ (k + 1) := Nat.le_self_pow (by omega) 2
    have hbig : 2 ^ 52 * 2 ≤ sig' * 2 ^ (k + 1) := Nat.mul_le_mul (hhidden' (by omega)) hpow
    omega

/-- R9: of one sign, a finite magnitude is the reading of one pattern. -/
theorem eq_of_finite_units {v w : Cell} {neg : Bool} {sig exp sig' exp' : Nat} (hv : f64 v = .finite neg sig exp)
    (hw : f64 w = .finite neg sig' exp') (h : sig * 2 ^ exp = sig' * 2 ^ exp') : v = w := by
  obtain ⟨hsig, hhidden, -, hval⟩ := f64_finite v neg sig exp hv
  obtain ⟨hsig', hhidden', -, hval'⟩ := f64_finite w neg sig' exp' hw
  obtain ⟨rfl, rfl⟩ := units_injective hsig hsig' hhidden hhidden' h
  exact BitVec.eq_of_toNat_eq (hval.trans hval'.symm)

/-- R134: from the midpoint above the largest finite number on, the rounding is infinity. -/
theorem roundUnits_overflow {num den : Nat} (neg : Bool) (hden : 0 < den) (h : den * overflowUnits ≤ num) :
    roundUnits neg num den = infBits neg := by
  rw [roundUnits_eq, if_pos]
  exact Nat.le_of_not_lt fun hlt => Nat.not_lt_of_le h ((roundedField_lt_iff hden 2044).mp hlt)

/-- R131, R133: below it, the rounding reads as the rounded significand in units of the last place, and has its parity. -/
theorem roundUnits_finite {num den : Nat} (neg : Bool) (hden : 0 < den) (h : num < den * overflowUnits) :
    (∃ sig exp, f64 (roundUnits neg num den) = .finite neg sig exp ∧
      sig * 2 ^ exp = roundedSig num den * 2 ^ roundedPlace num den) ∧
    (roundUnits neg num den).toNat % 2 = roundedSig num den % 2 := by
  have hfield := (roundedField_lt_iff hden 2044).mpr h
  have hval : (roundUnits neg num den).toNat =
      (if neg then 2 ^ 63 else 0) + (roundedPlace num den * 2 ^ 52 + roundedSig num den) := by
    rw [roundUnits_eq, if_neg (Nat.not_le_of_lt hfield)]
    exact signed_toNat neg (by omega)
  exact ⟨f64_rounded (roundedSig_le hden) (le_roundedSig hden) hfield hval, by rw [hval]; cases neg <;> simp <;> omega⟩

end Sys2Proof.Machine

namespace Sys2Proof.Claims

open Sys2Proof.Machine

/-- Settles O27: the exponent field overflows exactly from the midpoint on; below it the rounded significand is nearest among
the significands of 53 bits, and a tie that another pattern makes leaves it even. -/
theorem roundingIsNearestEven : Obligations.RoundingIsNearestEven := by
  unfold Obligations.RoundingIsNearestEven
  intro neg num den hden
  refine ⟨fun h => by rw [roundUnits_overflow neg hden h, f64_infBits], fun h => ?_⟩
  obtain ⟨⟨sig, exp, hread, hunits⟩, hparity⟩ := roundUnits_finite neg hden h
  refine ⟨sig, exp, hread, fun w sig' exp' hw => ?_⟩
  obtain ⟨hsig', -, -, -⟩ := f64_finite w neg sig' exp' hw
  obtain ⟨hle, htie⟩ := roundedSig_nearest (num := num) hden exp' hsig'
  rw [← hunits] at hle htie
  refine ⟨hle, fun hgap hne => hparity.trans (htie hgap fun hsame => hne ?_)⟩
  exact eq_of_finite_units hw hread hsame

end Sys2Proof.Claims
end

section
/-! The floating-point unit (R130 to R138): what the four operations give in each class of operands, as the rules of the four
instructions; the patterns of `NAN_RESULT` (R132); and that a pattern that is no NaN is the only one that reads as it does (R9). -/

namespace Sys2Proof.Machine

/-- R134: the pattern of an infinity, as a multiple of the exponent field's lowest bit. -/
theorem infBits_toNat (neg : Bool) : (infBits neg).toNat = (if neg then 4095 else 2047) * 2 ^ 52 := by
  cases neg <;> rfl

/-- R132: `NAN_RESULT` is an infinity with a fraction put in. -/
theorem nanResult_toNat (op : Config.FloatOp) (a b : Cell) :
    (nanResult op a b).toNat = (if (Config.nanChoice op a b).1 then 4095 else 2047) * 2 ^ 52 +
      ((Config.nanChoice op a b).2.val + 1) := by
  have hfrac : (Config.nanChoice op a b).2.val + 1 < 2 ^ 52 := by
    have hlt := (Config.nanChoice op a b).2.isLt
    omega
  rw [nanResult, BitVec.toNat_or, infBits_toNat, BitVec.toNat_ofNat, Nat.mod_eq_of_lt (by omega), ← Nat.shiftLeft_eq,
    Nat.shiftLeft_add_eq_or_of_lt hfrac]

/-- R132: a pattern reads as a NaN when its exponent field is all ones and its fraction is not zero. -/
theorem f64_eq_nan_iff (v : Cell) : f64 v = .nan ↔ f64Exponent v = 2047 ∧ f64Fraction v ≠ 0 := by
  unfold f64
  split_ifs <;> simp [*]

/-- R132: the test on the bits and the reading agree on what a NaN is. -/
theorem isNaN_iff (v : Cell) : isNaN v = true ↔ f64 v = .nan := by
  have hexp : v.extractLsb' 52 11 = 0x7FF#11 ↔ f64Exponent v = 2047 := by
    rw [← BitVec.toNat_inj, BitVec.extractLsb'_toNat, Nat.shiftRight_eq_div_pow]
    rfl
  have hfrac : v.extractLsb' 0 52 = 0#52 ↔ f64Fraction v = 0 := by
    rw [← BitVec.toNat_inj, BitVec.extractLsb'_toNat, Nat.shiftRight_zero]
    rfl
  rw [f64_eq_nan_iff, isNaN, Bool.and_eq_true, beq_iff_eq, bne_iff_ne, Ne, hexp, hfrac]

/-- R132: `NAN_RESULT` is a NaN, whatever its free bits. -/
theorem f64_nanResult (op : Config.FloatOp) (a b : Cell) : f64 (nanResult op a b) = .nan := by
  have hval := nanResult_toNat op a b
  have hlt := (Config.nanChoice op a b).2.isLt
  rw [f64_eq_nan_iff, f64Exponent, f64Fraction]
  split at hval <;> omega

/-- R9: an infinity is read from its own pattern alone. -/
theorem eq_infBits_of_f64 {v : Cell} {neg : Bool} (h : f64 v = .inf neg) : v = infBits neg := by
  have hsign := f64Sign_eq v
  have hlt := v.isLt
  unfold f64 at h
  split_ifs at h with hexp hfrac
  obtain rfl : f64Sign v = neg := F64.inf.inj h
  unfold f64Exponent f64Fraction at *
  apply BitVec.eq_of_toNat_eq
  rw [infBits_toNat, hsign]
  by_cases hneg : 2 ^ 63 ≤ v.toNat
  · rw [if_pos (decide_eq_true hneg)]
    omega
  · rw [if_neg (by simpa using hneg)]
    omega

/-- The sign of a magnitude turned. -/
theorem signedUnits_not (neg : Bool) (sig exp : Nat) : signedUnits (!neg) sig exp = -signedUnits neg sig exp := by
  cases neg <;> simp [signedUnits]

/-- R132: an operand that is a NaN makes each of the results a NaN. -/
theorem float_nan {x y : F64} (h : y = .nan ∨ x = .nan) :
    fadd x y = none ∧ fsub x y = none ∧ fmul x y = none ∧ fdiv x y = none := by
  rcases h with rfl | rfl
  · cases x <;> exact ⟨rfl, rfl, rfl, rfl⟩
  · exact ⟨rfl, rfl, rfl, rfl⟩

/-- R135: a sum does not depend on the order of its operands. -/
theorem fadd_comm (x y : F64) : fadd x y = fadd y x := by
  cases x with
  | nan => cases y <;> rfl
  | inf m =>
    cases y with
    | nan => rfl
    | inf n => cases m <;> cases n <;> rfl
    | finite n sig exp => rfl
  | finite m sx ex =>
    cases y with
    | nan => rfl
    | inf n => rfl
    | finite n sy ey => simp only [fadd, Int.add_comm (signedUnits n sy ey), Bool.and_comm n]

/-- R137: neither does a product. -/
theorem fmul_comm (x y : F64) : fmul x y = fmul y x := by
  cases x with
  | nan => cases y <;> rfl
  | inf m =>
    cases y with
    | nan => rfl
    | inf n => cases m <;> cases n <;> rfl
    | finite n sig exp => cases m <;> cases n <;> rfl
  | finite m sx ex =>
    cases y with
    | nan => rfl
    | inf n => cases m <;> cases n <;> rfl
    | finite n sy ey => simp only [fmul, Nat.mul_comm (sy * 2 ^ ey), bne_comm (a := n)]

/-- One is some units. -/
theorem unitsPerOne_pos : 0 < unitsPerOne := by
  unfold unitsPerOne
  positivity

/-- R138: on the zeros div-float raises. -/
theorem divFloatOp_zero {a : Cell} (b : Cell) (h : equalsZero a = true) : divFloatOp a b = .error .divByZero := by
  simp only [divFloatOp, h]

end Sys2Proof.Machine

namespace Sys2Proof.Claims

open Sys2Proof.Machine

/-- Settles O32: the free bits fill a fraction that is never zero, beside an exponent field of all ones. -/
theorem nanResultIsNaN : Obligations.NanResultIsNaN := by
  unfold Obligations.NanResultIsNaN
  exact fun op a b => ⟨(isNaN_iff _).mpr (f64_nanResult op a b), f64_nanResult op a b⟩

/-- Settles O34: an infinity's pattern is its own, and a finite reading gives sign, exponent field and fraction back. -/
theorem floatReadingIsExact : Obligations.FloatReadingIsExact := by
  unfold Obligations.FloatReadingIsExact
  intro v w h hnan
  cases hv : f64 v with
  | nan => exact absurd hv hnan
  | inf neg => rw [eq_infBits_of_f64 hv, eq_infBits_of_f64 (h.symm.trans hv)]
  | finite neg sig exp => exact eq_of_finite_units hv (h.symm.trans hv) rfl

/-- R131, R135: a finite sum is the zero the signs call for, or is rounded once. -/
theorem fadd_finite (m : Bool) (sx ex : Nat) (n : Bool) (sy ey : Nat) :
    ∃ r, fadd (.finite m sx ex) (.finite n sy ey) = some r ∧
      (signedUnits m sx ex + signedUnits n sy ey = 0 → r = zeroBits (m && n)) ∧
      (signedUnits m sx ex + signedUnits n sy ey ≠ 0 →
        RoundedTo (decide (signedUnits m sx ex + signedUnits n sy ey < 0))
          (signedUnits m sx ex + signedUnits n sy ey).natAbs 1 r) := by
  unfold fadd
  by_cases hzero : signedUnits m sx ex + signedUnits n sy ey = 0
  · exact ⟨_, if_pos hzero, fun _ => rfl, fun hne => absurd hzero hne⟩
  · exact ⟨_, if_neg hzero, fun h => absurd h hzero, fun _ => roundingIsNearestEven _ _ _ Nat.one_pos⟩

/-- Settles O28: case by case of the two readings; a finite sum that is not zero is rounded once. -/
theorem addFloatRule : Obligations.AddFloatRule := by
  unfold Obligations.AddFloatRule
  have hi : IsAlu .addFloat := by simp [IsAlu]
  refine ⟨hi.encodedAs, fun s => exec_alu_short hi, fun s a b rest hs hc =>
    ⟨_, exec_binOp_ok (i := .addFloat) (f := addFloatOp) rfl hs hc rfl, ?nan, ?infs, ?left, ?right, ?finite⟩⟩
  case nan =>
    intro h
    obtain ⟨hsum, -, -, -⟩ := float_nan h
    rw [hsum, floatResult]
  case infs =>
    intro m n hb ha
    rw [hb, ha]
    cases m <;> cases n <;> rfl
  case left => intro m n sig exp hb ha; rw [hb, ha]; rfl
  case right => intro m n sig exp hb ha; rw [hb, ha]; rfl
  case finite =>
    intro m sx ex n sy ey hb ha
    obtain ⟨r, hr, hzero, hround⟩ := fadd_finite m sx ex n sy ey
    rw [hb, ha, hr]
    exact ⟨fun h => (hzero h).trans (by cases m <;> cases n <;> rfl), hround⟩

/-- Settles O29: the rule of add-float with the sign of the later operand turned. -/
theorem subFloatRule : Obligations.SubFloatRule := by
  unfold Obligations.SubFloatRule
  have hi : IsAlu .subFloat := by simp [IsAlu]
  refine ⟨hi.encodedAs, fun s => exec_alu_short hi, fun s a b rest hs hc =>
    ⟨_, exec_binOp_ok (i := .subFloat) (f := subFloatOp) rfl hs hc rfl, ?nan, ?infs, ?left, ?right, ?finite⟩⟩
  case nan =>
    intro h
    obtain ⟨-, hdifference, -, -⟩ := float_nan h
    rw [hdifference, floatResult]
  case infs =>
    intro m n hb ha
    rw [hb, ha]
    cases m <;> cases n <;> rfl
  case left => intro m n sig exp hb ha; rw [hb, ha]; rfl
  case right => intro m n sig exp hb ha; rw [hb, ha]; rfl
  case finite =>
    intro m sx ex n sy ey hb ha
    obtain ⟨r, hr, hzero, hround⟩ := fadd_finite m sx ex (!n) sy ey
    rw [signedUnits_not, ← Int.sub_eq_add_neg] at hzero hround
    rw [hb, ha, fsub, f64Neg, hr]
    exact ⟨fun h => (hzero h).trans (by cases m <;> cases n <;> rfl), hround⟩

/-- Settles O30: case by case of the two readings; a finite product is rounded once, in units of 2^-2148. -/
theorem mulFloatRule : Obligations.MulFloatRule := by
  unfold Obligations.MulFloatRule
  have hi : IsAlu .mulFloat := by simp [IsAlu]
  refine ⟨hi.encodedAs, fun s => exec_alu_short hi, fun s a b rest hs hc =>
    ⟨_, exec_binOp_ok (i := .mulFloat) (f := mulFloatOp) rfl hs hc rfl, ?nan, ?infs, ?left, ?right, ?finite⟩⟩
  case nan =>
    intro h
    obtain ⟨-, -, hproduct, -⟩ := float_nan h
    rw [hproduct, floatResult]
  case infs =>
    intro m n hb ha
    rw [hb, ha, fmul, floatResult]
  case left =>
    intro m n sig exp hb ha
    rw [hb, ha, fmul]
    split_ifs <;> rfl
  case right =>
    intro m n sig exp hb ha
    rw [hb, ha, fmul]
    split_ifs <;> rfl
  case finite =>
    intro m sx ex n sy ey hb ha
    rw [hb, ha, fmul, floatResult]
    exact roundingIsNearestEven _ _ _ unitsPerOne_pos

/-- R139: the zero test finds one of the two zeros. -/
theorem equalsZero_iff (a : Cell) : equalsZero a = true ↔ a = 0#64 ∨ a = 0x8000000000000000#64 :=
  zeroTestHasTwoPatterns.1 a

/-- Settles O31: the zero test stops the two zeros, and the significand of any other finite divisor is not zero, so the
quotient is rounded once. -/
theorem divFloatRule : Obligations.DivFloatRule := by
  unfold Obligations.DivFloatRule
  have hi : IsAlu .divFloat := by simp [IsAlu]
  refine ⟨hi.encodedAs, fun s => exec_alu_short hi, fun s a b rest hs hc => ⟨fun ha => ?zero, fun hpos hneg => ?quotient⟩⟩
  case zero =>
    exact exec_binOp_error (i := .divFloat) (f := divFloatOp) rfl hs (divFloatOp_zero b ((equalsZero_iff a).mpr ha))
  case quotient =>
    have hne : equalsZero a = false := Bool.eq_false_iff.mpr fun h => ((equalsZero_iff a).mp h).elim hpos hneg
    refine ⟨_, exec_binOp_ok (i := .divFloat) rfl hs hc (divFloatOp_nonzero b hne), ?nan, ?infs, ?left, ?right, ?finite⟩
    case nan =>
      intro h
      obtain ⟨-, -, -, hquotient⟩ := float_nan h
      rw [hquotient, floatResult]
    case infs => intro m n hb ha; rw [hb, ha]; rfl
    case left => intro m n sig exp hb ha; rw [hb, ha, fdiv, floatResult]
    case right => intro m n sig exp hb ha; rw [hb, ha, fdiv, floatResult]
    case finite =>
      intro m sx ex n sy ey hb ha
      have hsig : sy ≠ 0 := by
        rintro rfl
        exact Bool.eq_false_iff.mp hne ((equalsZero_iff_f64 a).mpr ⟨n, ey, ha⟩)
      rw [hb, ha, fdiv, if_neg hsig, floatResult]
      exact roundingIsNearestEven _ _ _ (Nat.mul_pos (Nat.pos_iff_ne_zero.mpr hsig) (Nat.two_pow_pos _))

/-- C6: a result that is no NaN does not depend on the operands' cells but through the operation. -/
theorem floatResult_congr (op : Config.FloatOp) (a b : Cell) {r : Option Cell} (h : r ≠ none) :
    floatResult op a b r = floatResult op b a r := by
  obtain ⟨v, rfl⟩ := Option.ne_none_iff_exists'.mp h
  rfl

/-- C6, R87: a binary instruction whose operation answers one cell in either operand order ends in one state. -/
theorem exec_swap {i : Instr} {f : Cell → Cell → Except ErrKind Cell} {s : State} {a b r : Cell} {rest : List Cell}
    (heff : ∀ t, effect i t = binOp f t) (hc : capHolds s.params.stackCap (rest.length + 2) = true)
    (hab : f a b = .ok r) (hba : f b a = .ok r) :
    exec i { s with stack := a :: b :: rest } = exec i { s with stack := b :: a :: rest } := by
  have hleft := exec_binOp_ok (s := { s with stack := a :: b :: rest }) (heff _) rfl hc hab
  have hright := exec_binOp_ok (s := { s with stack := b :: a :: rest }) (heff _) rfl hc hba
  exact hleft.trans hright.symm

/-- Settles O35: the sum and the product do not depend on the order, and their patterns do not where they are no NaN. -/
theorem floatAddMulCommute : Obligations.FloatAddMulCommute := by
  unfold Obligations.FloatAddMulCommute
  intro s a b rest hc
  refine ⟨fun hne => exec_swap (f := addFloatOp) (fun _ => rfl) hc rfl ?sum,
    fun hne => exec_swap (f := mulFloatOp) (fun _ => rfl) hc rfl ?product⟩
  case sum => rw [addFloatOp, fadd_comm, floatResult_congr _ _ _ hne]
  case product => rw [mulFloatOp, fmul_comm, floatResult_congr _ _ _ hne]

end Sys2Proof.Claims
end

section
/-! The frames of the instructions (R24, R83, R84): what each leaves in the cells, cell by cell, and in the registers. -/

namespace Sys2Proof.Machine

/-- R25: no cell from the depth on is live. -/
theorem cellAt_of_depth_le {s : State} {j : Nat} (h : depth s ≤ j) : cellAt s j = none :=
  List.getElem?_eq_none (by simpa [depth] using h)

/-- R24: two stacks that differ above the cells `lower` alone agree on those, and from where neither is live. -/
theorem cellAt_eq_under {s t : State} {upper upper' lower : List Cell} (hs : s.stack = upper ++ lower)
    (ht : t.stack = upper' ++ lower) {j : Nat} (hj : j < lower.length ∨ (depth s ≤ j ∧ depth t ≤ j)) :
    cellAt t j = cellAt s j := by
  rcases hj with hlow | ⟨hsj, htj⟩
  · simp only [cellAt, hs, ht, List.reverse_append]
    rw [List.getElem?_append_left (by simpa using hlow), List.getElem?_append_left (by simpa using hlow)]
  · rw [cellAt_of_depth_le hsj, cellAt_of_depth_le htj]

/-- R85: a push raises `OutOfMemory` alone, at the capacity. -/
theorem push_error_iff {v : Cell} {s : State} {e : ErrKind} :
    push v s = .error e ↔ e = .outOfMemory ∧ capacity s.params.stackCap = some (depth s) := by
  rw [← capReached_iff, depth_eq_length]
  cases hfull : capReached s.params.stackCap s.stack.length with
  | true => simp [push_full v hfull, eq_comm]
  | false => simp [push_room v hfull]

end Sys2Proof.Machine

namespace Sys2Proof.Claims

open Sys2Proof.Machine

/-- Settles O40: a push commits its cell above the others, or halts at the capacity. -/
theorem pushFrame : Obligations.PushFrame := by
  unfold Obligations.PushFrame
  intro i v s t hi h
  have heff : effect i s = push v s := by rcases hi with rfl | rfl <;> rfl
  rw [exec_eq_retire, heff] at h
  rcases retire_cases h with ⟨u, hu, rfl⟩ | ⟨e, he, rfl⟩
  · have hframe : ∀ j, j ≠ depth s → cellAt u j = cellAt s j := fun j => cellAt_push_of_ne hu
    have htop : cellAt u (depth s) = some v := cellAt_push_top hu
    obtain ⟨-, rfl⟩ := push_ok hu
    exact ⟨rfl, rfl, rfl, hframe, .inl ⟨rfl, rfl, rfl, htop, rfl⟩⟩
  · obtain ⟨rfl, -⟩ := push_error_iff.mp he
    exact ⟨rfl, rfl, rfl, fun _ _ => rfl, .inr rfl⟩

/-- Settles O41: pop commits the cells under the top. -/
theorem popFrame : Obligations.PopFrame := by
  unfold Obligations.PopFrame
  intro s t h
  obtain rfl := Host.Outcome.next.inj ((exec_pop s).symm.trans h)
  have hdepth : depth (committed s.stack.tail s) = depth s - 1 := depth_dropTop s
  refine ⟨rfl, rfl, rfl, rfl, rfl, rfl, hdepth, fun j hj => ?under, cellAt_of_depth_le hdepth.le⟩
  case under =>
    have hsplit : s.stack = s.stack.take 1 ++ s.stack.tail := by rw [← List.drop_one, List.take_append_drop]
    refine cellAt_eq_under (upper' := []) hsplit rfl ?_
    rw [hdepth, List.length_tail, ← depth_eq_length]
    omega

/-- Settles O42: an ALU instruction commits its result in the place of its two operands, or halts. -/
theorem aluFrame : Obligations.AluFrame := by
  unfold Obligations.AluFrame
  intro i s t hi h
  obtain ⟨f, hf⟩ := hi.effect_eq_binOp s
  rw [exec_eq_retire, hf] at h
  rcases retire_cases h with ⟨u, hu, rfl⟩ | ⟨e, -, rfl⟩
  · obtain ⟨a, b, rest, r, hs, -, rfl⟩ := binOp_ok hu
    have hfound : depth s = rest.length + 2 := congrArg List.length hs
    have hleft : depth (advance { s with stack := r :: rest }) = rest.length + 1 := rfl
    refine ⟨rfl, rfl, rfl, .inl ⟨rfl, rfl, rfl, by omega, by omega, fun j hsecond htop => ?under,
      cellAt_of_depth_le (by omega)⟩⟩
    exact cellAt_eq_under (upper := [a, b]) (upper' := [r]) hs rfl (by omega)
  · exact ⟨rfl, rfl, rfl, .inr ⟨⟨e, rfl⟩, fun _ => rfl⟩⟩

end Sys2Proof.Claims
end

section
/-! The host's turn and the end of a run (R150, R152, R157, R192), the fields of `STATUS` (R29), and listed slots (R62). -/

namespace Sys2Proof.Machine

/-- R157: the command performed takes no other off the waiting list. -/
theorem perform_pending (c : Command) {s : State} (hrun : s.runState ≠ .running) : (perform c s).pending = s.pending := by
  rcases perform_cases c hrun with ⟨slots, -, -, hload⟩ | ⟨-, -, hstart⟩ | ⟨r, v, hreply⟩
  · rw [hload]; rfl
  · rw [hstart]
  · rw [hreply]; rfl

/-- R150: a command performed outside a run gives one reply, but for the START that begins a run. -/
theorem perform_replies (c : Command) {s : State} (hrun : s.runState ≠ .running)
    (hstart : ¬ (c = .start ∧ s.runState = .ready)) :
    ∃ r v, (perform c s).replies = s.replies ++ [{ command := c, response := r, value := v }] := by
  rcases perform_cases c hrun with ⟨slots, -, -, hload⟩ | ⟨hc, hready, -⟩ | ⟨r, v, hreply⟩
  · exact ⟨_, _, by rw [hload, reply_replies]⟩
  · exact absurd ⟨hc, hready⟩ hstart
  · exact ⟨r, v, by rw [hreply, reply_replies]⟩

/-- R29: the status word as a number: the error code in the second byte, the run state in the first. -/
theorem statusWord_toNat (s : State) :
    (statusWord s).toNat = (errCode s.err).toNat * 2 ^ 8 + (runStateCode s.runState).toNat := by
  rw [statusWord, BitVec.toNat_append, ← Nat.shiftLeft_add_eq_or_of_lt (BitVec.isLt _), BitVec.toNat_append,
    ← Nat.shiftLeft_add_eq_or_of_lt (BitVec.isLt _), BitVec.toNat_append, ← Nat.shiftLeft_add_eq_or_of_lt (BitVec.isLt _)]
  simp only [Nat.shiftLeft_eq, BitVec.toNat_ofNat]
  omega

/-- R29: a field of the status word as a number. -/
theorem statusWord_field_toNat (s : State) (start len : Nat) :
    ((statusWord s).extractLsb' start len).toNat =
      ((errCode s.err).toNat * 2 ^ 8 + (runStateCode s.runState).toNat) / 2 ^ start % 2 ^ len := by
  rw [BitVec.extractLsb'_toNat, Nat.shiftRight_eq_div_pow, statusWord_toNat]

/-- R29: the run state is in bits 2:0, the error code in bits 15:8, and every other bit reads 0. -/
theorem statusWord_fields (s : State) :
    (statusWord s).extractLsb' 0 3 = runStateCode s.runState ∧ (statusWord s).extractLsb' 3 5 = 0#5 ∧
    (statusWord s).extractLsb' 8 8 = errCode s.err ∧ (statusWord s).extractLsb' 16 48 = 0#48 := by
  have herr := (errCode s.err).isLt
  have hrun := (runStateCode s.runState).isLt
  refine ⟨?_, ?_, ?_, ?_⟩ <;>
  · apply BitVec.eq_of_toNat_eq
    rw [statusWord_field_toNat]
    bv_omega

end Sys2Proof.Machine

namespace Sys2Proof.Claims

open Sys2Proof.Machine

/-- Settles O45: the host's turn performs START; during a run it waits like every command but the read of STATUS; and the two
ways a run ends give its reply. -/
theorem startRule : Obligations.StartRule := by
  unfold Obligations.StartRule
  refine ⟨?begins, ?refused, ?held, ?ended⟩
  case begins =>
    intro s rest hready hpend
    rw [step_performs_oldest (by simp [hready]) hpend, perform_start_ready (s := { s with pending := rest }) hready]
  case refused =>
    intro s rest hstate hpend
    have hrun : s.runState ≠ .running := by rcases hstate with h | h | h <;> simp [h]
    exact step_answers hrun hpend (perform_start_not_ready hstate)
  case held =>
    intro s t hrun hmem hstep
    exact (mem_pending_step_running hrun hstep _).mpr ⟨hmem, Command.noConfusion⟩
  case ended =>
    intro s t hrun hstep hend
    rw [← answerStatusReads_eq_statusAnswered]
    rcases step_running_cases hrun hstep with ⟨-, rfl⟩ | ⟨-, e, rfl⟩ | ⟨-, cells, -, -, rfl⟩
    · exact ⟨_, rfl, .inl ⟨rfl, rfl⟩⟩
    · exact ⟨_, rfl, .inr ⟨rfl, e, rfl, rfl⟩⟩
    · exact absurd hrun hend

/-- Settles O51: a step of a run takes the reads of STATUS off the waiting list alone; outside one the oldest command is
performed, and an idle core holds its state. -/
theorem commandsHeldDuringRun : Obligations.CommandsHeldDuringRun := by
  unfold Obligations.CommandsHeldDuringRun
  refine ⟨?running, fun s c rest hrun hpend => ⟨step_performs_oldest hrun hpend, perform_pending c hrun⟩,
    fun s => step_idle⟩
  case running =>
    intro s t hrun hstep
    obtain ⟨hpend, -⟩ := coreStep_keeps_host ((step_running hrun).symm.trans hstep)
    rw [hpend, answerStatusReads_eq_statusAnswered]
    rfl

/-- Settles O52: of the commands performed outside a run the START that begins one alone gives no reply. -/
theorem oneResponsePerCommand : Obligations.OneResponsePerCommand := by
  unfold Obligations.OneResponsePerCommand
  refine ⟨?replies, rfl, rfl, rfl, rfl, rfl, rfl, rfl⟩
  case replies =>
    intro s c rest hrun hpend hstart
    obtain ⟨r, v, hreply⟩ := perform_replies c (s := { s with pending := rest }) hrun hstart
    exact ⟨_, r, v, step_performs_oldest hrun hpend, hreply⟩

/-- Settles O53: the LOAD leaves READY, where START begins the run. -/
theorem loadThenStartRuns : Obligations.LoadThenStartRuns := by
  unfold Obligations.LoadThenStartRuns
  intro s slots rest hrun hpend hlen
  obtain ⟨hbegins, -⟩ := startRule
  rw [run_succ 1 (step_load_accepted hrun hpend hlen), run_succ 0 (hbegins _ rest rfl rfl)]
  exact ⟨_, rfl, rfl, rfl, rfl, rfl, rfl, rfl⟩

/-- Settles O50: each field reads back the code put in it. -/
theorem statusLayout : Obligations.StatusLayout := by
  unfold Obligations.StatusLayout
  intro s
  obtain ⟨hrun, hlow, herr, hhigh⟩ := statusWord_fields s
  rw [hrun, herr]
  refine ⟨?_, ?_, ?_, ?_, ?_, hlow, ?_, ?_, ?_, ?_, ?_, ?_, hhigh⟩ <;> intro h <;> rw [h] <;> rfl

/-- Settles O4: the legal words are the slots of their instructions, and the two others have an unassigned opcode and a stray
immediate. -/
theorem listedSlotsDecode : Obligations.ListedSlotsDecode := by
  unfold Obligations.ListedSlotsDecode
  exact ⟨decode_encode (.pushInteger 1#64), decode_encode (.pushInteger (-3#64)),
    decode_encode (.pushFloat 0x3FF199999999999A#64), decode_encode .pop, decode_encode .divInt, decode_encode .divFloat,
    decode_unassigned (by decide), decode_stray (by decide) (by decide) (by decide)⟩

end Sys2Proof.Claims
end

section
/-! The causes of errors (R171, R175) and the division primitive (R10): when `IntResult` and the divisions raise, and that an
instruction halts with an error exactly when its effect raises it, which is when the table of causes says so. -/

namespace Sys2Proof.Machine

/-- R87: two cells or more. -/
theorem exists_two_cells {s : State} (h : 2 ≤ depth s) : ∃ a b rest, s.stack = a :: b :: rest := by
  rw [depth_eq_length] at h
  match hs : s.stack with
  | [] => simp [hs] at h
  | [_] => simp [hs] at h
  | a :: b :: rest => exact ⟨a, b, rest, rfl⟩

/-- R10: a truncated quotient is negative when the signs differ and it is not 0. -/
theorem tdiv_neg_iff {x y : Int} (hy : y ≠ 0) :
    tdiv x y < 0 ↔ ((x < 0 ∧ 0 < y) ∨ (0 < x ∧ y < 0)) ∧ y.natAbs ≤ x.natAbs := by
  have hpos : 0 < x.natAbs / y.natAbs ↔ y.natAbs ≤ x.natAbs := by
    rw [Nat.div_pos_iff]
    omega
  unfold tdiv
  dsimp only
  generalize x.natAbs / y.natAbs = q at hpos ⊢
  simp only [beq_iff_eq, decide_eq_decide]
  split_ifs <;> omega

end Sys2Proof.Machine

namespace Sys2Proof.Claims

open Sys2Proof.Machine

/-- R83, R172: a commit gives START no reply, so it is no halt. -/
theorem committed_ne_haltedWith (cells : List Cell) (e : ErrKind) (s : State) : committed cells s ≠ haltedWith e s := by
  intro h
  have hreplies : s.replies = s.replies ++ [_] := congrArg State.replies h
  simp at hreplies

/-- R172: the halted state shows its error. -/
theorem haltedWith_inj {e e' : ErrKind} {s : State} (h : haltedWith e s = haltedWith e' s) : e = e' :=
  Option.some.inj (congrArg State.err h)

/-- R84: an instruction halts with an error exactly when its effect raises it. -/
theorem exec_halts_iff {i : Instr} {s : State} {e : ErrKind} :
    exec i s = .next (haltedWith e s) ↔ effect i s = .error e := by
  refine ⟨fun h => ?_, exec_of_effect_error⟩
  rcases exec_cases i s with ⟨cells, -, -, -, hex⟩ | ⟨e', heff, hex⟩
  · exact absurd (Host.Outcome.next.inj (hex.symm.trans h)) (committed_ne_haltedWith cells e s)
  · rw [heff, haltedWith_inj (Host.Outcome.next.inj (hex.symm.trans h))]

/-- R111: `IntResult` raises `IntOverflow` alone, under `FAULT`, for a result that does not fit. -/
theorem intResult_error_iff {o : Config.IntOverflow} {n : Int} {e : ErrKind} :
    intResult o n = .error e ↔ e = .intOverflow ∧ o = .fault ∧ ¬ Fits n := by
  by_cases hn : Fits n
  · simp [intResult_of_fits o hn, hn]
  · cases o with
    | wrap => simp [intResult_wrap]
    | fault => simp [intResult_fault hn, hn, eq_comm]

/-- R115, R175: what div-int raises: a zero divisor comes first. -/
theorem divIntOp_error_iff {o : Config.IntOverflow} {a b : Cell} {e : ErrKind} :
    divIntOp o a b = .error e ↔
      (e = .divByZero ∧ a.toInt = 0) ∨
      (e = .intOverflow ∧ o = .fault ∧ b.toInt = -(2 ^ 63) ∧ a.toInt = -1) := by
  by_cases ha : a.toInt = 0
  · rw [divIntOp_zero o b ha]
    simp [ha, eq_comm]
  · have hcorner : ¬ Fits (b.toInt.tdiv a.toInt) ↔ b.toInt = -(2 ^ 63) ∧ a.toInt = -1 :=
      ⟨not_imp_comm.mp fits_tdiv, fun ⟨hb, ha⟩ => by rw [hb, ha]; exact not_fits_tdiv_corner⟩
    rw [divIntOp_nonzero o b ha, intResult_error_iff, hcorner]
    simp [ha]

/-- R138: div-float raises `DivByZero` alone, on the two zeros. -/
theorem divFloatOp_error_iff {a b : Cell} {e : ErrKind} :
    divFloatOp a b = .error e ↔ e = .divByZero ∧ (a = 0#64 ∨ a = 0x8000000000000000#64) := by
  rw [← equalsZero_iff]
  cases hzero : equalsZero a with
  | true => simp [divFloatOp_zero b hzero, eq_comm]
  | false => simp [divFloatOp_nonzero b hzero]

/-- R87: no ALU instruction is a push. -/
theorem IsAlu.not_push {i : Instr} (hi : IsAlu i) : ¬ ∃ v, i = .pushInteger v ∨ i = .pushFloat v := by
  rintro ⟨v, rfl | rfl⟩ <;> simp [IsAlu] at hi

/-- R171: the causes for an ALU instruction that finds its two cells: they are those of its operation. -/
theorem errorCause_two {i : Instr} {s : State} {a b : Cell} {rest : List Cell} {e : ErrKind} (hi : IsAlu i)
    (hs : s.stack = a :: b :: rest) :
    ErrorCause i s e ↔
      (e = .divByZero ∧ ((i = .divInt ∧ a.toInt = 0) ∨ (i = .divFloat ∧ (a = 0#64 ∨ a = 0x8000000000000000#64)))) ∨
      (e = .intOverflow ∧ s.params.intOverflow = .fault ∧
        ((i = .addInt ∧ ¬ Fits (b.toInt + a.toInt)) ∨ (i = .subInt ∧ ¬ Fits (b.toInt - a.toInt)) ∨
         (i = .mulInt ∧ ¬ Fits (b.toInt * a.toInt)) ∨ (i = .divInt ∧ b.toInt = -(2 ^ 63) ∧ a.toInt = -1))) := by
  cases e <;> simp [ErrorCause, hs, depth, hi.not_push]

/-- R171, R175: an ALU instruction that finds its two cells is the frame of an operation that raises by the table. -/
theorem IsAlu.op_error_iff {i : Instr} {s : State} {a b : Cell} {rest : List Cell} (hi : IsAlu i)
    (hs : s.stack = a :: b :: rest) :
    ∃ f, effect i s = binOp f s ∧ ∀ e, f a b = .error e ↔ ErrorCause i s e := by
  simp only [errorCause_two hi hs]
  rcases hi with rfl | rfl | rfl | rfl | rfl | rfl | rfl | rfl
  · exact ⟨_, rfl, fun e => intResult_error_iff.trans (by simp)⟩
  · exact ⟨_, rfl, fun e => intResult_error_iff.trans (by simp)⟩
  · exact ⟨_, rfl, fun e => intResult_error_iff.trans (by simp)⟩
  · exact ⟨_, rfl, fun e => divIntOp_error_iff.trans (by simp)⟩
  · exact ⟨addFloatOp, rfl, fun e => by simp [addFloatOp]⟩
  · exact ⟨subFloatOp, rfl, fun e => by simp [subFloatOp]⟩
  · exact ⟨mulFloatOp, rfl, fun e => by simp [mulFloatOp]⟩
  · exact ⟨divFloatOp, rfl, fun e => divFloatOp_error_iff.trans (by simp)⟩

/-- R86, R175: an ALU instruction that finds fewer than two cells raises `OutOfBounds` before anything else. -/
theorem IsAlu.short_error_iff {i : Instr} {s : State} (hi : IsAlu i) (h : depth s < 2) (e : ErrKind) :
    effect i s = .error e ↔ ErrorCause i s e := by
  have hnone : ∀ a b rest, s.stack ≠ a :: b :: rest := fun a b rest hs => by simp [depth, hs] at h
  obtain ⟨f, hf⟩ := hi.effect_eq_binOp s
  rw [hf, binOp_short f h]
  cases e <;> simp [ErrorCause, hi, h, hnone, hi.not_push]

/-- R85, R171: a push raises at the capacity alone, and so says the table. -/
theorem push_error_iff_cause {i : Instr} {v : Cell} {s : State} (hi : i = .pushInteger v ∨ i = .pushFloat v) (e : ErrKind) :
    effect i s = .error e ↔ ErrorCause i s e := by
  have heff : effect i s = push v s := by rcases hi with rfl | rfl <;> rfl
  rw [heff, push_error_iff]
  rcases hi with rfl | rfl <;> cases e <;> simp [ErrorCause, IsAlu]

/-- Settles O26: the model's primitive is the integers' truncating division, whose sign is read off the signs. -/
theorem truncatedDivisionRule : Obligations.TruncatedDivisionRule := by
  unfold Obligations.TruncatedDivisionRule
  intro x y hy
  exact ⟨(congrArg Int.natAbs (tdiv_eq_int_tdiv x y)).trans (Int.natAbs_tdiv x y), tdiv_neg_iff hy, tdiv_eq_int_tdiv x y⟩

/-- Settles O37: an instruction halts when its effect raises; a push does at the capacity, pop never, an ALU instruction on
fewer than two cells, and else by its operation, the push of the result finding room. -/
theorem eachErrorHasItsCause : Obligations.EachErrorHasItsCause := by
  unfold Obligations.EachErrorHasItsCause
  intro i s e hc
  rw [exec_halts_iff]
  rcases effect_kinds i with ⟨v, hi⟩ | rfl | hi
  · exact push_error_iff_cause hi e
  · cases e <;> simp [effect, ErrorCause, IsAlu]
  · rcases Nat.lt_or_ge (depth s) 2 with hshort | htwo
    · exact hi.short_error_iff hshort e
    · obtain ⟨a, b, rest, hs⟩ := exists_two_cells htwo
      obtain ⟨f, hf, hcause⟩ := hi.op_error_iff hs
      rw [hf, ← hcause]
      cases hop : f a b with
      | error e' => rw [binOp_raises hs hop]; simp
      | ok r => rw [binOp_result hs hc hop]; simp

end Sys2Proof.Claims
end

section
/-! The typing discipline (R195, R140): the ghost types count the cells as the stack does, so an instruction that the check
passes finds its operands, and a run of a program that it passes never halts for want of them. -/

namespace Sys2Proof.Machine

/-- R85, R87, R102: how many cells an instruction that commits leaves of `d`. -/
def depthAfter : Instr → Nat → Nat
  | .pushInteger _, d => d + 1
  | .pushFloat _, d => d + 1
  | _, d => d - 1

end Sys2Proof.Machine

namespace Sys2Proof.Claims

open Sys2Proof.Machine

/-- R87: an ALU instruction leaves one cell of its two. -/
theorem IsAlu.depthAfter_eq {i : Instr} (hi : IsAlu i) (d : Nat) : depthAfter i d = d - 1 := by
  rcases hi with rfl | rfl | rfl | rfl | rfl | rfl | rfl | rfl <;> rfl

/-- R85, R87, R102: the depth after an instruction whose effect raises nothing. -/
theorem depth_of_effect_ok {i : Instr} {s t : State} (h : effect i s = .ok t) : depth t = depthAfter i (depth s) := by
  rcases effect_kinds i with ⟨v, rfl | rfl⟩ | rfl | hi
  · obtain ⟨-, rfl⟩ := push_ok h
    rfl
  · obtain ⟨-, rfl⟩ := push_ok h
    rfl
  · obtain rfl := Except.ok.inj h
    exact depth_dropTop s
  · obtain ⟨f, hf⟩ := hi.effect_eq_binOp s
    obtain ⟨a, b, rest, r, hs, -, rfl⟩ := binOp_ok (hf.symm.trans h)
    simp [hi.depthAfter_eq, depth, hs]

/-- R195: the ghost types are counted alike, and two of them are found by an ALU instruction. -/
theorem length_of_typeStep {i : Instr} {ts us : List CellType} (h : typeStep i ts = some us) :
    us.length = depthAfter i ts.length ∧ (IsAlu i → 2 ≤ ts.length) := by
  unfold typeStep at h
  split at h <;> cases h <;> simp [depthAfter, IsAlu]

/-- R86, R171: `OutOfBounds` is raised by an ALU instruction alone, on fewer than two cells. -/
theorem effect_outOfBounds {i : Instr} {s : State} (h : effect i s = .error .outOfBounds) : IsAlu i ∧ depth s < 2 := by
  rcases effect_kinds i with ⟨v, hi⟩ | rfl | hi
  · exact (push_error_iff_cause hi _).mp h
  · cases h
  · refine ⟨hi, Nat.lt_of_not_le fun htwo => ?_⟩
    obtain ⟨a, b, rest, hs⟩ := exists_two_cells htwo
    obtain ⟨f, hf, hcause⟩ := hi.op_error_iff hs
    rw [hf, binOp_two hs] at h
    cases hop : f a b with
    | error e =>
      obtain rfl : e = .outOfBounds := by simpa [hop] using h
      exact absurd ((hcause _).mp hop).2 (Nat.not_lt_of_le htwo)
    | ok r =>
      simp only [hop, push_error_iff] at h
      cases h.1

/-- R195, R140: an instruction that the check passes commits cells that the ghost types count, or halts with an error other
than `OutOfBounds`. -/
theorem exec_typed {i : Instr} {s : State} {ts us : List CellType} (hlen : ts.length = depth s)
    (htype : typeStep i ts = some us) :
    (∃ cells, exec i s = .next (committed cells s) ∧ us.length = cells.length) ∨
    (∃ e, exec i s = .next (haltedWith e s) ∧ e ≠ .outOfBounds) := by
  obtain ⟨hcount, htwo⟩ := length_of_typeStep htype
  rcases exec_cases i s with ⟨cells, heff, -, -, hex⟩ | ⟨e, heff, hex⟩
  · exact .inl ⟨cells, hex, by rw [hcount, hlen, ← depth_of_effect_ok heff]; rfl⟩
  · refine .inr ⟨e, hex, ?_⟩
    rintro rfl
    obtain ⟨hi, hshort⟩ := effect_outOfBounds heff
    exact absurd (htwo hi) (by omega)

/-- R195: a program that keeps the discipline does so from its second instruction on. -/
theorem keepsTypes_cons {i : Instr} {program : List Instr} {ts : List CellType}
    (h : keepsTypes (i :: program) ts = true) : ∃ us, typeStep i ts = some us ∧ keepsTypes program us = true := by
  rw [keepsTypes] at h
  split at h
  next us hus => exact ⟨us, hus, h⟩
  next => cases h

/-- R81, R195: a step of a run with no command held, of a program that keeps the discipline: the run ends, and not with
`OutOfBounds`, or it goes on with the rest of the program and with types that count the cells. -/
theorem step_typed {s t : State} {program : List Instr} {ts : List CellType} (hs : s.Inv) (hrun : s.runState = .running)
    (hpend : s.pending = []) (hcode : s.code.drop s.pc.toNat = program.map encode) (hlen : ts.length = depth s)
    (hkeeps : keepsTypes program ts = true) (h : step s = .next t) :
    (t.runState ≠ .running ∧ t.err ≠ some .outOfBounds) ∨
    (t.runState = .running ∧ ∃ rest us, t.code.drop t.pc.toNat = rest.map encode ∧ us.length = depth t ∧
      keepsTypes rest us = true) := by
  rw [step_running hrun, answerStatusReads_of_quiet hpend] at h
  cases program with
  | nil =>
    have hend : s.pc.toNat = codeLen s := Nat.le_antisymm hs.pc_le (List.drop_eq_nil_iff.mp hcode)
    obtain rfl := Host.Outcome.next.inj ((coreStep_end hend).symm.trans h)
    exact .inl ⟨by simp, by simp [hs.err_none (by simp [hrun])]⟩
  | cons i rest =>
    have hfetch : fetch s = some (encode i) := by
      rw [fetch, slotAt, ← List.head?_drop, hcode]
      rfl
    have hlt : s.pc.toNat < codeLen s := (List.getElem?_eq_some_iff.mp hfetch).1
    obtain ⟨us, hus, hrest⟩ := keepsTypes_cons hkeeps
    rw [(coreStep_fetch hlt hfetch).2 i (decode_encode i)] at h
    rcases exec_typed hlen hus with ⟨cells, hex, hcount⟩ | ⟨e, hex, hne⟩
    · obtain rfl := Host.Outcome.next.inj (hex.symm.trans h)
      refine .inr ⟨hrun, rest, us, ?_, hcount, hrest⟩
      show s.code.drop (s.pc + 1#64).toNat = _
      rw [hs.advance_pc hlt, ← List.tail_drop, hcode]
      rfl
    · obtain rfl := Host.Outcome.next.inj (hex.symm.trans h)
      exact .inl ⟨RunState.noConfusion, fun herr => hne (Option.some.inj herr)⟩

/-- Settles O54: one instruction by the count of its types; a run by induction on its steps, the invariant and the discipline
holding of the rest of the program, and an ended run being idle. -/
theorem typedInstructionFindsOperands : Obligations.TypedInstructionFindsOperands := by
  unfold Obligations.TypedInstructionFindsOperands
  refine ⟨?instruction, ?run⟩
  case instruction =>
    intro i s t ts us hlen htype h
    rcases exec_typed hlen htype with ⟨cells, hex, hcount⟩ | ⟨e, hex, hne⟩ <;>
      obtain rfl := Host.Outcome.next.inj (hex.symm.trans h)
    · exact ⟨committed_ne_haltedWith cells _ s, fun _ => hcount⟩
    · exact ⟨fun heq => hne (haltedWith_inj heq), fun hno => absurd rfl (hno e)⟩
  case run =>
    intro s u program ts k
    induction k generalizing s program ts with
    | zero =>
      intro hs hrun _ _ _ _ h
      obtain rfl := Host.Outcome.next.inj h
      simp [hs.err_none (by simp [hrun])]
    | succ k ih =>
      intro hs hrun hpend hcode hlen hkeeps h
      obtain ⟨t, hstep, h⟩ := run_succ_next h
      have hquiet := pending_step_quiet hrun hpend hstep
      rcases step_typed hs hrun hpend hcode hlen hkeeps hstep with
        ⟨hend, herr⟩ | ⟨hgo, rest, us, hcode, hlen, hkeeps⟩
      · obtain rfl := eq_of_run_idle hend hquiet h
        exact herr
      · exact ih t rest us (hs.step hstep) hgo hquiet hcode hlen hkeeps h

end Sys2Proof.Claims
end
